-- ==== Sys2Proof/Word.lean ====
section
/-! DEFINITION. The word types of the engine: a byte on MOSI, MISO or in the store, and a command frame seen as one
48-bit value (00_scope.md R9, 30_encoding.md R71). -/

namespace Sys2Proof

/-- One byte, bits 7 down to 0 (00_scope.md R10). -/
abbrev Byte := BitVec 8

/-- A command frame as one value, its first byte in bits 47 to 40 (30_encoding.md R71). -/
abbrev FrameWord := BitVec 48

end Sys2Proof
end

