-- ==== Sys2Proof/Config.lean ====
section
/-! DEFINITION. The parameters of an engine instance (00_scope.md R8, 10_state.md R33), and the values they have in the
instance that State.reset creates: opaque where the spec leaves them open (log 1), the spec's decided value elsewhere
(log 2). -/

namespace Sys2Proof

/-- What CMD0 does in phase SPI_ACMD (00_scope.md R8, decision D3). -/
inductive Cmd0InSpiAcmd where
  | reset
  | illegal
deriving DecidableEq, Repr

/-- What CMD18 and CMD25 do (00_scope.md R8, decision D14). -/
inductive MultiBlockMode where
  | single
  | refuse
deriving DecidableEq, Repr

/-- The configuration constants of one engine instance (10_state.md R33). No event writes them. -/
structure Config where
  /-- CAPACITY, the size of the store in bytes. -/
  capacity : Nat
  /-- CRC_ENFORCE, whether the write-CRC bytes are checked (10_state.md R24). -/
  crcEnforce : Bool
  /-- OCR_VALUE, the register CMD58 returns. -/
  ocrValue : BitVec 32
  /-- READ_R1_PREFIX, whether a read response begins with the R1 byte 0x00. -/
  readR1Prefix : Bool
  /-- ILLEGAL_R1, the illegal-command byte. -/
  illegalR1 : Byte
  /-- CMD0_IN_SPI_ACMD. -/
  cmd0InSpiAcmd : Cmd0InSpiAcmd
  /-- MULTI_BLOCK_MODE. -/
  multiBlockMode : MultiBlockMode
  /-- CS_INIT, the logical chip-select at creation. -/
  csInit : Bool
  /-- INITIAL_IMAGE, the store's bytes at creation, as (address, byte) pairs; an address without a pair holds 0x00
  (log 3: every image of CAPACITY bytes can be written so). -/
  initialImage : List Host.Cell
deriving DecidableEq, Repr

namespace Config

/-- BLOCK_LEN (00_scope.md R8). -/
def blockLen : Nat := 512

/-- A valid instance has `512 <= CAPACITY <= 2^32` (00_scope.md R8, decision D16). -/
abbrev valid (c : Config) : Prop := blockLen ≤ c.capacity ∧ c.capacity ≤ 2 ^ 32

/-- CAPACITY is a model argument: nothing is known of this number (log 1). -/
opaque capacityChoice : Nat

/-- The capacity of the reset instance: any number from 512 to 2^32, as `capacityChoice` says (log 1). -/
def capacityParam : Nat := blockLen + capacityChoice % (2 ^ 32 - blockLen + 1)

/-- CRC_ENFORCE is OPEN (decision D9): nothing is known of this value (log 1). -/
opaque crcEnforceParam : Bool

/-- OCR_VALUE is OPEN (decision D6): nothing is known of this value (log 1). -/
opaque ocrValueParam : BitVec 32

/-- INITIAL_IMAGE is a model argument (20_memory.md R50): nothing is known of this value (logs 1 and 3). -/
opaque initialImageParam : List Host.Cell

/-- The parameters of the instance State.reset creates: the open ones opaque (log 1), the others at the spec's decided
values (log 2). -/
def params : Config where
  capacity := capacityParam
  crcEnforce := crcEnforceParam
  ocrValue := ocrValueParam
  readR1Prefix := true
  illegalR1 := 0x04
  cmd0InSpiAcmd := .reset
  multiBlockMode := .single
  csInit := false
  initialImage := initialImageParam

end Config

end Sys2Proof
end

