-- ==== Sys2Proof/Machine/Crc.lean ====
section
/-! DEFINITION. The CRC16 and CRC7 engines (42_crc.md). Polynomials, bit order and tables are the spec's, which takes
them from general knowledge (log 12). -/

namespace Sys2Proof.Machine

/-- CRC16_INIT (00_scope.md R8). -/
def crc16Init : BitVec 16 := 0xFFFF

/-- CRC16_POLY, x^16 + x^12 + x^5 + 1 (00_scope.md R8). -/
def crc16Poly : BitVec 16 := 0x1021

/-- CRC7_POLY, x^7 + x^3 + 1 (00_scope.md R8). -/
def crc7Poly : BitVec 7 := 0x09

/-- One step of the generation of `T16`: shift left through the polynomial (42_crc.md R161). -/
def t16Step (c : BitVec 16) : BitVec 16 := if c.getLsbD 15 then (c <<< 1) ^^^ crc16Poly else c <<< 1

/-- `T16[i]` (42_crc.md R161). -/
def t16 (i : Byte) : BitVec 16 :=
  t16Step (t16Step (t16Step (t16Step (t16Step (t16Step (t16Step (t16Step ((i.setWidth 16) <<< 8))))))))

/-- `Fold16(c, b)` (42_crc.md R160). -/
def fold16 (c : BitVec 16) (b : Byte) : BitVec 16 := (c <<< 8) ^^^ t16 (((c >>> 8).setWidth 8) ^^^ b)

/-- One bit of the bitwise form of `Fold16` (42_crc.md R162). -/
def fold16Bit (c : BitVec 16) (x : Bool) : BitVec 16 :=
  if (c.getLsbD 15 ^^ x) then (c <<< 1) ^^^ crc16Poly else c <<< 1

/-- The bits of a byte from bit 7 down to bit 0. -/
def bitsMsbFirst (b : Byte) : List Bool :=
  [b.getLsbD 7, b.getLsbD 6, b.getLsbD 5, b.getLsbD 4, b.getLsbD 3, b.getLsbD 2, b.getLsbD 1, b.getLsbD 0]

/-- The bitwise form of `Fold16` (42_crc.md R162). -/
def fold16Bitwise (c : BitVec 16) (b : Byte) : BitVec 16 := (bitsMsbFirst b).foldl fold16Bit c

/-- The running CRC16 of a byte sequence from a start value (42_crc.md R160). -/
def crc16Fold (start : BitVec 16) (d : List Byte) : BitVec 16 := d.foldl fold16 start

/-- The CRC16 of a block (42_crc.md R163). -/
def crc16Of (d : List Byte) : BitVec 16 := crc16Fold crc16Init d

/-- `crc16[15:8]` (42_crc.md R164). -/
def crcHigh (c : BitVec 16) : Byte := c.extractLsb' 8 8

/-- `crc16[7:0]` (42_crc.md R164). -/
def crcLow (c : BitVec 16) : Byte := c.extractLsb' 0 8

/-- One bit of the bitwise form of `Fold7` (42_crc.md R167). -/
def fold7Bit (r : BitVec 7) (x : Bool) : BitVec 7 :=
  if (r.getLsbD 6 ^^ x) then (r <<< 1) ^^^ crc7Poly else r <<< 1

/-- The bitwise form of `Fold7` (42_crc.md R167). -/
def fold7Bitwise (r : BitVec 7) (b : Byte) : BitVec 7 := (bitsMsbFirst b).foldl fold7Bit r

/-- `T7[x]`, the CRC7 of the single byte `x` from 0 (42_crc.md R166). -/
def t7 (x : Byte) : BitVec 7 := fold7Bitwise 0 x

/-- `Fold7(r, b)` (42_crc.md R165). -/
def fold7 (r : BitVec 7) (b : Byte) : BitVec 7 := t7 (((r.setWidth 8) <<< 1) ^^^ b)

/-- `Crc7` of a byte sequence (42_crc.md R165). No rule of the engine reads it (R168). -/
def crc7Of (d : List Byte) : BitVec 7 := d.foldl fold7 0

/-- The sixth frame byte of the SD convention, the CRC7 and an end bit 1 (42_crc.md R169). -/
def crc7FrameByte (firstFive : List Byte) : Byte := crc7Of firstFive ++ (1 : BitVec 1)

end Sys2Proof.Machine
end

