-- ==== Sys2Proof/Syntax.lean ====
section
/-! DEFINITION. The phases of the engine, the port events of the host, and the instructions: one constructor for each
row of spec/opcode_table.json. -/

namespace Sys2Proof

/-- The ten phases (10_state.md R21). -/
inductive Phase where
  | boot
  | spi
  | spiAcmd
  | idle
  | idleAcmd
  | cmdResponse
  | readBlock
  | writeStbt
  | writeListen
  | writeCrc
deriving DecidableEq, Repr

namespace Phase

/-- The spec's numeric code of a phase, not observable on any port (10_state.md R21, decision D20). -/
def code : Phase → BitVec 4
  | boot => 0
  | spi => 1
  | spiAcmd => 2
  | idle => 3
  | idleAcmd => 4
  | cmdResponse => 5
  | readBlock => 6
  | writeStbt => 7
  | writeListen => 8
  | writeCrc => 9

/-- CmdPhases, the command-accepting phases (00_scope.md R13). -/
def isCommand : Phase → Bool
  | boot | spi | spiAcmd | idle | idleAcmd => true
  | cmdResponse | readBlock | writeStbt | writeListen | writeCrc => false

/-- TxPhases, in which a response or block is being sent (00_scope.md R13). -/
def isTx : Phase → Bool
  | cmdResponse | readBlock => true
  | boot | spi | spiAcmd | idle | idleAcmd | writeStbt | writeListen | writeCrc => false

/-- WritePhases (00_scope.md R13). -/
def isWrite : Phase → Bool
  | writeStbt | writeListen | writeCrc => true
  | boot | spi | spiAcmd | idle | idleAcmd | cmdResponse | readBlock => false

end Phase

/-- What the host can do to the engine (43_adapter.md R180). -/
inductive PortEvent where
  /-- A chip-select level change to the physical level `level`, active low (R181). -/
  | cs (level : BitVec 1)
  /-- One SPI byte clocked by the master (R182, R183). -/
  | mosi (b : Byte)
  /-- The reset event (R184). -/
  | reset
deriving DecidableEq, Repr

/-- The fields of a command frame beside its index: framing bits, argument, CRC byte (30_encoding.md R71). -/
structure FrameFields where
  framing : BitVec 2
  arg : BitVec 32
  crc : Byte
deriving DecidableEq, Repr

/-- The instructions: the rows of spec/opcode_table.json in the table's order. A row whose index is fixed holds the
frame's other fields; a row that stands for many indexes (the ILLEGAL rows) holds the index too. -/
inductive Instr where
  /-- CMD0 (R132). -/
  | cmd0 (f : FrameFields)
  /-- ILLEGAL_BOOT (R133). -/
  | illegalBoot (idx : BitVec 6) (f : FrameFields)
  /-- CMD55 from SPI (R134). -/
  | cmd55 (f : FrameFields)
  /-- ILLEGAL_SPI (R135). -/
  | illegalSpi (idx : BitVec 6) (f : FrameFields)
  /-- ACMD41 (R136). -/
  | acmd41 (f : FrameFields)
  /-- ILLEGAL_SPI_ACMD (R137). -/
  | illegalSpiAcmd (idx : BitVec 6) (f : FrameFields)
  /-- ILLEGAL_IDLE_ACMD (R138). -/
  | illegalIdleAcmd (idx : BitVec 6) (f : FrameFields)
  /-- CMD17 (R139). -/
  | cmd17 (f : FrameFields)
  /-- CMD18 (R140). -/
  | cmd18 (f : FrameFields)
  /-- CMD24 (R141). -/
  | cmd24 (f : FrameFields)
  /-- CMD25 (R142). -/
  | cmd25 (f : FrameFields)
  /-- CMD13 (R143). -/
  | cmd13 (f : FrameFields)
  /-- CMD55_IDLE (R144). -/
  | cmd55Idle (f : FrameFields)
  /-- CMD58 (R145). -/
  | cmd58 (f : FrameFields)
  /-- ILLEGAL_IDLE (R146). -/
  | illegalIdle (idx : BitVec 6) (f : FrameFields)
  /-- FRAME_BYTE (R102). -/
  | frameByte (b : Byte)
  /-- START_BLOCK_TOKEN (R103). -/
  | startBlockToken
  /-- DISCARDED_BYTE (R103). -/
  | discardedByte (b : Byte)
  /-- WRITE_DATA_BYTE (R104). -/
  | writeDataByte (b : Byte)
  /-- WRITE_CRC_BYTE0 (R105). -/
  | writeCrcByte0 (b : Byte)
  /-- WRITE_CRC_BYTE1 (R106). -/
  | writeCrcByte1 (b : Byte)
  /-- TX_FILLER (R107). -/
  | txFiller
  /-- TX_VIOLATION (R107). -/
  | txViolation (b : Byte)
  /-- CS_EVENT (R181). -/
  | csEvent (level : BitVec 1)
  /-- MOSI_BYTE (R182, R183). -/
  | mosiByte (b : Byte)
  /-- RESET_EVENT (R184). -/
  | resetEvent
deriving DecidableEq, Repr

/-- The three formats of the opcode table. -/
inductive Format where
  | commandFrame48
  | mosiByte8
  | portEvent
deriving DecidableEq, Repr

/-- The table's format of an instruction's row. -/
def Instr.format : Instr → Format
  | .cmd0 _ | .illegalBoot _ _ | .cmd55 _ | .illegalSpi _ _ | .acmd41 _ | .illegalSpiAcmd _ _
  | .illegalIdleAcmd _ _ | .cmd17 _ | .cmd18 _ | .cmd24 _ | .cmd25 _ | .cmd13 _ | .cmd55Idle _
  | .cmd58 _ | .illegalIdle _ _ => .commandFrame48
  | .frameByte _ | .startBlockToken | .discardedByte _ | .writeDataByte _ | .writeCrcByte0 _
  | .writeCrcByte1 _ | .txFiller | .txViolation _ => .mosiByte8
  | .csEvent _ | .mosiByte _ | .resetEvent => .portEvent

end Sys2Proof
end

