-- ==== Sys2Proof/WellFormed.lean ====
section
/-! DEFINITION. Which instruction terms stand for something the host can send: the conditions of the opcode table's
rows, and the first byte a frame may have (30_encoding.md R72). -/

namespace Sys2Proof

/-- Where a unit is decoded: the state the decoder reads (30_encoding.md R70, R76) and the one parameter that changes
the command map (R77). -/
structure DecodeCtx where
  phase : Phase
  wcrcIdx : Fin 2
  cmd0InSpiAcmd : Cmd0InSpiAcmd
deriving DecidableEq, Repr

/-- The index of a frame instruction, none for the other rows (30_encoding.md R77). -/
def Instr.index? : Instr → Option (BitVec 6)
  | .cmd0 _ => some 0
  | .cmd13 _ => some 13
  | .cmd17 _ => some 17
  | .cmd18 _ => some 18
  | .cmd24 _ => some 24
  | .cmd25 _ => some 25
  | .acmd41 _ => some 41
  | .cmd55 _ | .cmd55Idle _ => some 55
  | .cmd58 _ => some 58
  | .illegalBoot idx _ | .illegalSpi idx _ | .illegalSpiAcmd idx _ | .illegalIdleAcmd idx _
  | .illegalIdle idx _ => some idx
  | .frameByte _ | .startBlockToken | .discardedByte _ | .writeDataByte _ | .writeCrcByte0 _
  | .writeCrcByte1 _ | .txFiller | .txViolation _ | .csEvent _ | .mosiByte _ | .resetEvent => none

/-- A frame can be sent unless its first byte is 0xFF, which a command phase takes as filler: index 63 with framing
bits 11 (30_encoding.md R72). -/
def sendable (idx : BitVec 6) (f : FrameFields) : Bool := !(idx == 63 && f.framing == 3)

/-- The condition of the instruction's own row in the opcode table, and that its frame can be sent. -/
def Instr.wellFormed (m : Cmd0InSpiAcmd) : Instr → Bool
  | .cmd0 _ | .cmd55 _ | .acmd41 _ | .cmd17 _ | .cmd18 _ | .cmd24 _ | .cmd25 _ | .cmd13 _
  | .cmd55Idle _ | .cmd58 _ => true
  | .illegalBoot idx f => idx != 0 && sendable idx f
  | .illegalSpi idx f => !([0, 55].contains idx) && sendable idx f
  | .illegalSpiAcmd idx f => idx != 41 && (idx != 0 || m == .illegal) && sendable idx f
  | .illegalIdleAcmd idx f => idx != 0 && sendable idx f
  | .illegalIdle idx f => !([0, 13, 17, 18, 24, 25, 55, 58].contains idx) && sendable idx f
  | .frameByte _ | .startBlockToken | .writeDataByte _ | .writeCrcByte0 _ | .writeCrcByte1 _
  | .txFiller => true
  | .discardedByte b => b != 0xFE
  | .txViolation b => b != 0xFF
  | .csEvent _ | .mosiByte _ | .resetEvent => true

/-- The "phase" column of the instruction's row: where a unit of the row's form is this instruction. -/
def Instr.inPhase (c : DecodeCtx) : Instr → Bool
  | .cmd0 _ => c.phase.isCommand && !(c.phase == .spiAcmd && c.cmd0InSpiAcmd == .illegal)
  | .illegalBoot _ _ => c.phase == .boot
  | .cmd55 _ | .illegalSpi _ _ => c.phase == .spi
  | .acmd41 _ | .illegalSpiAcmd _ _ => c.phase == .spiAcmd
  | .illegalIdleAcmd _ _ => c.phase == .idleAcmd
  | .cmd17 _ | .cmd18 _ | .cmd24 _ | .cmd25 _ | .cmd13 _ | .cmd55Idle _ | .cmd58 _
  | .illegalIdle _ _ => c.phase == .idle
  | .frameByte _ => c.phase.isCommand
  | .startBlockToken | .discardedByte _ => c.phase == .writeStbt
  | .writeDataByte _ => c.phase == .writeListen
  | .writeCrcByte0 _ => c.phase == .writeCrc && c.wcrcIdx == 0
  | .writeCrcByte1 _ => c.phase == .writeCrc && c.wcrcIdx == 1
  | .txFiller | .txViolation _ => c.phase.isTx
  | .csEvent _ | .mosiByte _ | .resetEvent => true

end Sys2Proof
end

