-- ==== Sys2Proof/Decode.lean ====
section
/-! DEFINITION. The decoder (30_encoding.md R70 to R82, 41_commands.md R130), total and rejecting by name, and the
encoder written from the same tables. A unit is a command frame, a MOSI byte or a port event; what a unit means depends
on the context. -/

namespace Sys2Proof

/-- 0xFF: filler on MOSI, idle on MISO (30_encoding.md R78). -/
def fillerByte : Byte := 0xFF

/-- 0xFE: the start-block token (30_encoding.md R78). -/
def startToken : Byte := 0xFE

/-- One unit of the input: the three formats of the opcode table. -/
inductive CodeUnit where
  | frame (w : FrameWord)
  | byte (b : Byte)
  | event (e : PortEvent)
deriving DecidableEq, Repr

/-- Why a unit has no instruction. -/
inductive DecodeReject where
  /-- A whole frame was given in a phase that assembles none (30_encoding.md R82). -/
  | notACommandPhase (p : Phase)
  /-- The stream is empty. -/
  | noByte
  /-- The stream ends inside a frame, after `got` bytes of it. -/
  | shortFrame (got : Nat)
deriving DecidableEq, Repr

/-! ### The fields of a frame -/

/-- The command index, `F[45:40]` (30_encoding.md R74). -/
def frameIndex (w : FrameWord) : BitVec 6 := w.extractLsb' 40 6

/-- The framing bits, the argument (big-endian, so `F[39:8]`) and the CRC byte (30_encoding.md R71, R73). -/
def frameFields (w : FrameWord) : FrameFields where
  framing := w.extractLsb' 46 2
  arg := w.extractLsb' 8 32
  crc := w.extractLsb' 0 8

/-- The frame word with the given index and fields (30_encoding.md R71). -/
def frameOf (idx : BitVec 6) (f : FrameFields) : FrameWord := f.framing ++ idx ++ f.arg ++ f.crc

/-- The frame word of six bytes, the first in bits 47 to 40 (30_encoding.md R71). -/
def frameOfBytes (v : Vector Byte 6) : FrameWord := v[0] ++ v[1] ++ v[2] ++ v[3] ++ v[4] ++ v[5]

/-- The six bytes of a frame word, in the order they are sent (30_encoding.md R71). -/
def frameBytes (w : FrameWord) : Vector Byte 6 :=
  #v[w.extractLsb' 40 8, w.extractLsb' 32 8, w.extractLsb' 24 8, w.extractLsb' 16 8, w.extractLsb' 8 8,
    w.extractLsb' 0 8]

/-! ### The decoder -/

/-- The first test of Dispatch: the index 0 resets, but in SPI_ACMD when CMD0_IN_SPI_ACMD = ILLEGAL (41_commands.md
R130 test 1, decision D3). -/
def isCmd0 (c : DecodeCtx) (idx : BitVec 6) : Bool :=
  idx == 0 && !(c.phase == .spiAcmd && c.cmd0InSpiAcmd == .illegal)

/-- The row of an index other than 0 in IDLE (41_commands.md R130 test 6). -/
def decodeIdle (idx : BitVec 6) (f : FrameFields) : Instr :=
  if idx = 13 then .cmd13 f
  else if idx = 17 then .cmd17 f
  else if idx = 18 then .cmd18 f
  else if idx = 24 then .cmd24 f
  else if idx = 25 then .cmd25 f
  else if idx = 55 then .cmd55Idle f
  else if idx = 58 then .cmd58 f
  else .illegalIdle idx f

/-- The row a frame is in each phase: the tests of Dispatch in the spec's order (41_commands.md R130,
30_encoding.md R77); no row in a phase that assembles no frame. -/
def decodeFrame (c : DecodeCtx) (w : FrameWord) : Except DecodeReject Instr :=
  let idx := frameIndex w
  let f := frameFields w
  match c.phase with
  | .cmdResponse | .readBlock | .writeStbt | .writeListen | .writeCrc => .error (.notACommandPhase c.phase)
  | .boot => .ok (if isCmd0 c idx then .cmd0 f else .illegalBoot idx f)
  | .spi => .ok (if isCmd0 c idx then .cmd0 f else if idx = 55 then .cmd55 f else .illegalSpi idx f)
  | .spiAcmd => .ok (if isCmd0 c idx then .cmd0 f else if idx = 41 then .acmd41 f else .illegalSpiAcmd idx f)
  | .idleAcmd => .ok (if isCmd0 c idx then .cmd0 f else .illegalIdleAcmd idx f)
  | .idle => .ok (if isCmd0 c idx then .cmd0 f else decodeIdle idx f)

/-- The row a MOSI byte accepted while selected is in each phase (30_encoding.md R70, 40_byte_engine.md R101). -/
def decodeByte (c : DecodeCtx) (b : Byte) : Instr :=
  match c.phase with
  | .boot | .spi | .spiAcmd | .idle | .idleAcmd => .frameByte b
  | .writeStbt => if b = startToken then .startBlockToken else .discardedByte b
  | .writeListen => .writeDataByte b
  | .writeCrc => if c.wcrcIdx = 0 then .writeCrcByte0 b else .writeCrcByte1 b
  | .cmdResponse | .readBlock => if b = fillerByte then .txFiller else .txViolation b

/-- The row of a port event (43_adapter.md R181 to R184). -/
def decodeEvent : PortEvent → Instr
  | .cs level => .csEvent level
  | .mosi b => .mosiByte b
  | .reset => .resetEvent

/-- The instruction a unit is in a context. -/
def decode (c : DecodeCtx) : CodeUnit → Except DecodeReject Instr
  | .frame w => decodeFrame c w
  | .byte b => .ok (decodeByte c b)
  | .event e => .ok (decodeEvent e)

/-- The first unit of a stream of selected MOSI bytes that starts between units, and the bytes after it: its length
is known from the phase alone (30_encoding.md R82). A 0xFF in a command phase is a filler byte, a unit of its own;
any other byte there is the first of six (R72). -/
def decodeStream (c : DecodeCtx) : List Byte → Except DecodeReject (Instr × List Byte)
  | [] => .error .noByte
  | b0 :: rest =>
    if c.phase.isCommand = true ∧ b0 ≠ fillerByte then
      match rest with
      | b1 :: b2 :: b3 :: b4 :: b5 :: rest' =>
        (decodeFrame c (frameOfBytes #v[b0, b1, b2, b3, b4, b5])).map (fun i => (i, rest'))
      | short => .error (.shortFrame (short.length + 1))
    else .ok (decodeByte c b0, rest)

/-! ### The encoder -/

/-- The unit of an instruction, from the table's "encoding" column. -/
def encode : Instr → CodeUnit
  | .cmd0 f => .frame (frameOf 0 f)
  | .illegalBoot idx f => .frame (frameOf idx f)
  | .cmd55 f => .frame (frameOf 55 f)
  | .illegalSpi idx f => .frame (frameOf idx f)
  | .acmd41 f => .frame (frameOf 41 f)
  | .illegalSpiAcmd idx f => .frame (frameOf idx f)
  | .illegalIdleAcmd idx f => .frame (frameOf idx f)
  | .cmd17 f => .frame (frameOf 17 f)
  | .cmd18 f => .frame (frameOf 18 f)
  | .cmd24 f => .frame (frameOf 24 f)
  | .cmd25 f => .frame (frameOf 25 f)
  | .cmd13 f => .frame (frameOf 13 f)
  | .cmd55Idle f => .frame (frameOf 55 f)
  | .cmd58 f => .frame (frameOf 58 f)
  | .illegalIdle idx f => .frame (frameOf idx f)
  | .frameByte b => .byte b
  | .startBlockToken => .byte startToken
  | .discardedByte b => .byte b
  | .writeDataByte b => .byte b
  | .writeCrcByte0 b => .byte b
  | .writeCrcByte1 b => .byte b
  | .txFiller => .byte fillerByte
  | .txViolation b => .byte b
  | .csEvent level => .event (.cs level)
  | .mosiByte b => .event (.mosi b)
  | .resetEvent => .event .reset

/-- The format of a unit. -/
def CodeUnit.format : CodeUnit → Format
  | .frame _ => .commandFrame48
  | .byte _ => .mosiByte8
  | .event _ => .portEvent

/-- The MOSI bytes of a unit, none for the events that carry no byte. -/
def CodeUnit.bytes : CodeUnit → List Byte
  | .frame w => (frameBytes w).toList
  | .byte b => [b]
  | .event (.mosi b) => [b]
  | .event (.cs _) => []
  | .event .reset => []

/-! ### Words of the opcode table -/

/-- The unit whose bits are `w`: a 48-bit row is a frame with its first byte in bits 47 to 40, as the table numbers it;
an 8-bit row a MOSI byte; a 1-bit row a chip-select level; a row without bits the reset event (log 7). -/
def tableUnit (nbits w : Nat) : Option CodeUnit :=
  if nbits = 48 then some (.frame (BitVec.ofNat 48 w))
  else if nbits = 8 then some (.byte (BitVec.ofNat 8 w))
  else if nbits = 1 then some (.event (.cs (BitVec.ofNat 1 w)))
  else if nbits = 0 then some (.event .reset)
  else none

/-- A phase in which a bare unit is read, since the table's words do not say one: for a frame the phase in which its
index has a row with a fixed pattern (SPI for 55, the first of its two rows), BOOT for every other index; for a byte
WRITE_STBT for 0xFE, CMD_RESPONSE for 0xFF, BOOT for every other (log 7). -/
def tablePhase : CodeUnit → Phase
  | .frame w =>
    if frameIndex w = 55 then .spi
    else if frameIndex w = 41 then .spiAcmd
    else if frameIndex w = 13 ∨ frameIndex w = 17 ∨ frameIndex w = 18 ∨ frameIndex w = 24 ∨ frameIndex w = 25
        ∨ frameIndex w = 58 then .idle
    else .boot
  | .byte b => if b = startToken then .writeStbt else if b = fillerByte then .cmdResponse else .boot
  | .event _ => .boot

/-- The instruction the decoder reads from a row's word, in the phase `tablePhase` names (log 7). -/
def decodeTableWord (nbits w : Nat) : Option Instr :=
  match tableUnit nbits w with
  | none => none
  | some u => (decode ⟨tablePhase u, 0, .reset⟩ u).toOption

end Sys2Proof
end

