-- ==== Sys2Proof/Machine/State.lean ====
section
/-! DEFINITION. The state of the engine, the reasons a step can stop, and the state at creation (10_state.md R20,
70_reset_and_hazards.md R232). -/

namespace Sys2Proof.Machine

/-- The store, as the bytes that differ from INITIAL_IMAGE, by rising address (20_memory.md R50, log 3). -/
abbrev Memory := List Host.Cell

/-- The engine's state tuple (10_state.md R20) and its two ports (43_adapter.md R180). Bounds that hold of one register
alone are in its type; relations between registers are `Sys2Proof.Inv` (10_state.md R35). -/
structure State where
  /-- `phase`, the current protocol state (R21). -/
  phase : Phase
  /-- `after_send_state`, the phase a response returns to (R22). -/
  afterSend : Phase
  /-- `cs_sel`, the logical chip-select (R23). -/
  csSel : Bool
  /-- `head`, the transfer cursor (R25). -/
  head : Nat
  /-- `cmd_buf` (R26). -/
  cmdBuf : Vector Byte 6
  /-- `cmd_len`, how many frame bytes are captured (R26). -/
  cmdLen : Fin 6
  /-- `resp_buf` (R27). -/
  respBuf : Vector Byte 5
  /-- `resp_len`, how many bytes are queued (R27). -/
  respLen : Fin 6
  /-- `resp_idx`, the next byte to send (R27). -/
  respIdx : Fin 5
  /-- `blk_count`, how many bytes of the current block are done (R28). -/
  blkCount : Fin 512
  /-- `crc16`, the running CRC of the current block (R29). -/
  crc16 : BitVec 16
  /-- `wcrc_idx`, which write-CRC byte comes next (R30). -/
  wcrcIdx : Fin 2
  /-- `wcrc_ok`, whether every write-CRC byte so far matched (R31). -/
  wcrcOk : Bool
  /-- `multi`, the multi-block flag (R32). -/
  multi : Bool
  /-- `store`, the backing store (20_memory.md R50). -/
  store : Memory
  /-- The configuration constants (R33). -/
  cfg : Config
  /-- The port events the host has still to issue, the next one first (the model's own field, log 4). -/
  inputs : List PortEvent
  /-- The bytes of the MISO events so far, the oldest first (the model's own field, log 5). -/
  miso : List Byte
deriving DecidableEq, Repr

/-- Why the machine stops with a fault. No state that `Sys2Proof.Inv` allows reaches one (43_adapter.md R187). -/
inductive Fault where
  /-- Produce in READ_BLOCK or Accept in WRITE_LISTEN with `head >= CAPACITY`: the store has no such byte
  (20_memory.md R51, R54). Safe (log 8). -/
  | storeAddressOutOfRange
  /-- Produce in CMD_RESPONSE with `resp_idx >= resp_len`: no byte is queued there (10_state.md R27). Safe (log 9). -/
  | responseIndexOutOfRange
deriving DecidableEq, Repr

/-- Why an instruction is given no meaning. -/
inductive Refusal where
  /-- An instruction whose arm in exec is not written yet. Safe. -/
  | notModelled (mnemonic : String)
  /-- CMD18 or CMD25 in an instance with MULTI_BLOCK_MODE = REFUSE (41_commands.md R140, R142, decision D14). Safe
  (log 10). -/
  | multiBlockRefused
  /-- FRAME_BYTE run with a frame's sixth byte in a phase that dispatches no frame; Accept never does so
  (40_byte_engine.md R101). Safe (log 11). -/
  | frameOutsideCommandPhase
  /-- The command decoder gave a row that is not a command; it never does (30_encoding.md R77). Safe (log 11). -/
  | notACommandFrame
  /-- The byte decoder gave a row that is not a MOSI byte's; it never does (30_encoding.md R70). Safe (log 11). -/
  | notAMosiByte
deriving DecidableEq, Repr

/-- The state an engine is created in, for a configuration (70_reset_and_hazards.md R230, R232). Nothing is pending on
the ports (logs 4 and 5). -/
def State.create (c : Config) : State where
  phase := .boot
  afterSend := .boot
  csSel := c.csInit
  head := 0
  cmdBuf := #v[0x00, 0x00, 0x00, 0x00, 0x00, 0x00]
  cmdLen := 0
  respBuf := #v[0x00, 0x00, 0x00, 0x00, 0x00]
  respLen := 0
  respIdx := 0
  blkCount := 0
  crc16 := 0xFFFF
  wcrcIdx := 0
  wcrcOk := true
  multi := false
  store := []
  cfg := c
  inputs := []
  miso := []

/-- The machine right after reset: an engine just created with the parameters of Config.lean. -/
def State.reset : State := State.create Config.params

/-- What the decoder reads of the state (30_encoding.md R70, R76). -/
abbrev State.decodeCtx (s : State) : DecodeCtx := ⟨s.phase, s.wcrcIdx, s.cfg.cmd0InSpiAcmd⟩

end Sys2Proof.Machine
end

