-- ==== Sys2Proof/Machine/Operands.lean ====
section
/-! DEFINITION. The operand forms of the engine: the frame in `cmd_buf`, the address of a block command, and the
response formats (30_encoding.md R71 to R73, R79, 41_commands.md R131). -/

namespace Sys2Proof.Machine

/-- The frame held in `cmd_buf` (30_encoding.md R71). -/
def State.frameWord (s : State) : FrameWord := frameOfBytes s.cmdBuf

/-- `InRange(arg)`: the 512 bytes from `arg` lie in the store, on natural numbers (41_commands.md R131). -/
def inRange (c : Config) (arg : BitVec 32) : Bool := decide (arg.toNat + Config.blockLen ≤ c.capacity)

/-- 0x05: the data-response token "accepted", and the placeholder of WRITE_CRC (30_encoding.md R78). -/
def dataAccepted : Byte := 0x05

/-- 0x0B: the data-response token "CRC error" (30_encoding.md R78). -/
def dataCrcError : Byte := 0x0B

/-- The responses the engine queues (30_encoding.md R79). -/
inductive Response where
  /-- R1 ready. -/
  | r1Ready
  /-- Idle R1. -/
  | r1Idle
  /-- Illegal-command R1, with the byte ILLEGAL_R1. -/
  | r1Illegal (code : Byte)
  /-- Address-error R1. -/
  | r1AddressError
  /-- R2, send status. -/
  | r2Status
  /-- R3, with OCR_VALUE. -/
  | r3Ocr (ocr : BitVec 32)
  /-- The read preamble, with or without its R1 byte. -/
  | readPreamble (withR1 : Bool)
  /-- The trailer of a read block. -/
  | crcTrailer (crc : BitVec 16)
  /-- The data-response token of a written block. -/
  | dataResponse (accepted : Bool)
deriving DecidableEq, Repr

/-- The bytes of a response, the first sent first (30_encoding.md R79). -/
def Response.bytes : Response → List Byte
  | r1Ready => [0x00]
  | r1Idle => [0x01]
  | r1Illegal code => [code]
  | r1AddressError => [0x20]
  | r2Status => [0x00, 0x00]
  | r3Ocr ocr => [0x00, ocr.extractLsb' 24 8, ocr.extractLsb' 16 8, ocr.extractLsb' 8 8, ocr.extractLsb' 0 8]
  | readPreamble withR1 => if withR1 then [0x00, startToken] else [startToken]
  | crcTrailer crc => [crcHigh crc, crcLow crc]
  | dataResponse accepted => if accepted then [dataAccepted] else [dataCrcError]

/-- Every response fits RESP_MAX = 5 bytes and is not empty (40_byte_engine.md R100, 30_encoding.md R79). -/
theorem Response.bytes_length (r : Response) : 1 ≤ r.bytes.length ∧ r.bytes.length < 6 := by
  cases r <;> simp only [Response.bytes] <;> first | decide | (split <;> decide) | simp

end Sys2Proof.Machine
end

