-- ==== Sys2Proof/Machine/Flags.lean ====
section
/-! DEFINITION. The one flag computation of the engine: the verdict on the write-CRC bytes (40_byte_engine.md R105,
R106). The flag `multi` is only set to constants (10_state.md R32). -/

namespace Sys2Proof.Machine

/-- Whether a write-CRC byte passes: any byte when CRC_ENFORCE is false, the expected one when it is true
(10_state.md R24). -/
def wcrcByteOk (enforce : Bool) (expected b : Byte) : Bool := !enforce || b == expected

/-- `wcrc_ok` after a write-CRC byte `b` that is compared with `expected` (10_state.md R31). -/
def State.wcrcOkAfter (s : State) (expected b : Byte) : Bool := s.wcrcOk && wcrcByteOk s.cfg.crcEnforce expected b

end Sys2Proof.Machine
end

