-- ==== Sys2Proof/Machine/Ops.lean ====
section
/-! DEFINITION. The named operations the meanings share: the store, Queue, FullReset, entering and leaving an error
response, the MISO port. -/

namespace Sys2Proof.Machine

/-- Go on from a next state; a fault or a refusal stays. -/
def andThen (o : Host.Outcome State Fault Refusal) (f : State → Host.Outcome State Fault Refusal) :
    Host.Outcome State Fault Refusal :=
  match o with
  | .next s => f s
  | .fault r => .fault r
  | .refused r => .refused r

/-! ### The store -/

/-- What the list of cells says of an address, if anything. -/
def lookupCell : List Host.Cell → Nat → Option Byte
  | [], _ => none
  | (b, v) :: m, a => if a = b then some v else lookupCell m a

/-- What an address that the store does not list reads as: its byte of INITIAL_IMAGE (20_memory.md R50, log 3). -/
def unlisted (image : List Host.Cell) (a : Nat) : Byte := (lookupCell image a).getD 0x00

/-- The byte at an address. -/
def Memory.read (image : List Host.Cell) (m : Memory) (a : Nat) : Byte := (lookupCell m a).getD (unlisted image a)

/-- Put the byte `v` at the address `a`, where an unlisted `a` reads as `base`: the canonical form is kept. -/
def Memory.put (base : Byte) : Memory → Nat → Byte → Memory
  | [], a, v => if v = base then [] else [(a, v)]
  | (b, w) :: m, a, v =>
    if a < b then (if v = base then (b, w) :: m else (a, v) :: (b, w) :: m)
    else if a = b then (if v = base then m else (a, v) :: m)
    else (b, w) :: Memory.put base m a v

/-- The byte at `a` becomes `v`. -/
def Memory.write (image : List Host.Cell) (m : Memory) (a : Nat) (v : Byte) : Memory :=
  Memory.put (unlisted image a) m a v

/-- Every address of the list is above `lo`, and the addresses rise. -/
def Memory.rising : Option Nat → Memory → Bool
  | _, [] => true
  | none, (a, _) :: m => Memory.rising (some a) m
  | some lo, (a, _) :: m => decide (lo < a) && Memory.rising (some a) m

/-- The canonical form: addresses strictly rising, no entry equal to what its address reads as unlisted. -/
def Memory.wf (image : List Host.Cell) (m : Memory) : Bool :=
  Memory.rising none m && m.all (fun c => decide (c.2 ≠ unlisted image c.1))

/-- `MemRead(a, 1)` for `a < CAPACITY`; no byte elsewhere (20_memory.md R51). -/
def State.memRead (s : State) (a : Nat) : Option Byte :=
  if a < s.cfg.capacity then some (Memory.read s.cfg.initialImage s.store a) else none

/-- `MemWrite(a, 1, v)` for `a < CAPACITY`; none elsewhere (20_memory.md R51). -/
def State.memWrite (s : State) (a : Nat) (v : Byte) : Option State :=
  if a < s.cfg.capacity then some { s with store := Memory.write s.cfg.initialImage s.store a v } else none

/-! ### Responses and errors -/

/-- `resp_buf` with its first bytes replaced (40_byte_engine.md R100). -/
def fillResponse (buf : Vector Byte 5) (bs : List Byte) : Vector Byte 5 :=
  #v[bs.getD 0 buf[0], bs.getD 1 buf[1], bs.getD 2 buf[2], bs.getD 3 buf[3], bs.getD 4 buf[4]]

/-- `Queue(bytes, next)` (40_byte_engine.md R100). -/
def queue (r : Response) (next : Phase) (s : State) : State :=
  { s with
    respBuf := fillResponse s.respBuf r.bytes
    respLen := ⟨r.bytes.length, r.bytes_length.2⟩
    respIdx := 0
    afterSend := next
    phase := .cmdResponse }

/-- The end of a response, and so the return from an error response: the saved phase is restored
(40_byte_engine.md R109, 60_exceptions.md R209). -/
def endResponse (s : State) : State := { s with respLen := 0, respIdx := 0, phase := s.afterSend }

/-- `FullReset()`: every protocol register at its reset value; chip-select, configuration and store kept
(70_reset_and_hazards.md R230). -/
def fullReset (s : State) : State :=
  { s with
    phase := .boot
    afterSend := .boot
    cmdLen := 0
    cmdBuf := #v[0x00, 0x00, 0x00, 0x00, 0x00, 0x00]
    respLen := 0
    respIdx := 0
    respBuf := #v[0x00, 0x00, 0x00, 0x00, 0x00]
    head := 0
    blkCount := 0
    crc16 := crc16Init
    wcrcIdx := 0
    wcrcOk := true
    multi := false }

/-- Taking a coded error: the code is queued and the phase to return to saved; nothing else is saved
(60_exceptions.md R208). -/
def takeError (code : Response) (returnTo : Phase) (s : State) : State := queue code returnTo s

/-- An illegal command (60_exceptions.md R202). -/
def illegalCommand (returnTo : Phase) (s : State) : State := takeError (.r1Illegal s.cfg.illegalR1) returnTo s

/-- An address error (60_exceptions.md R203). -/
def addressError (s : State) : State := takeError .r1AddressError .idle s

/-- `raise ProtocolViolation`: a full reset, no code; the byte is consumed (60_exceptions.md R204). -/
def protocolViolation (s : State) : State := fullReset s

/-! ### Blocks and ports -/

/-- A read command: the preamble is queued if the block is in range, the address error otherwise
(41_commands.md R139, R140). -/
def startRead (arg : BitVec 32) (multi : Bool) (s : State) : State :=
  if inRange s.cfg arg then
    queue (.readPreamble s.cfg.readR1Prefix) .readBlock
      { s with head := arg.toNat, multi := multi, crc16 := crc16Init, blkCount := 0 }
  else addressError s

/-- A write command: R1 is queued if the block is in range, the address error otherwise (41_commands.md R141,
R142). -/
def startWrite (arg : BitVec 32) (multi : Bool) (s : State) : State :=
  if inRange s.cfg arg then queue .r1Ready .writeStbt { s with head := arg.toNat, multi := multi }
  else addressError s

/-- `emit MISO(v)` (43_adapter.md R183, log 5). -/
def emitMiso (v : Byte) (s : State) : State := { s with miso := s.miso ++ [v] }

end Sys2Proof.Machine
end

