-- ==== Sys2Proof/Machine/Commands.lean ====
section
/-! DEFINITION. The meanings of the command frames (41_commands.md R132 to R146), each the effect Dispatch gives the
frame. The phase a frame is legal in is the decoder's (log 15). -/

namespace Sys2Proof.Machine

/-- CMD0 (R132). -/
def execCmd0 (s : State) : Host.Outcome State Fault Refusal := .next (queue .r1Idle .spi (fullReset s))

/-- ILLEGAL_BOOT (R133). -/
def execIllegalBoot (s : State) : Host.Outcome State Fault Refusal := .next (illegalCommand .boot s)

/-- CMD55 from SPI (R134). -/
def execCmd55 (s : State) : Host.Outcome State Fault Refusal := .next (queue .r1Idle .spiAcmd s)

/-- ILLEGAL_SPI (R135). -/
def execIllegalSpi (s : State) : Host.Outcome State Fault Refusal := .next (illegalCommand .spi s)

/-- ACMD41 (R136). -/
def execAcmd41 (s : State) : Host.Outcome State Fault Refusal := .next (queue .r1Ready .idle s)

/-- ILLEGAL_SPI_ACMD (R137). -/
def execIllegalSpiAcmd (s : State) : Host.Outcome State Fault Refusal := .next (illegalCommand .spiAcmd s)

/-- ILLEGAL_IDLE_ACMD (R138): the phase goes back to IDLE. -/
def execIllegalIdleAcmd (s : State) : Host.Outcome State Fault Refusal := .next (illegalCommand .idle s)

/-- CMD17, read single block (R139). -/
def execCmd17 (f : FrameFields) (s : State) : Host.Outcome State Fault Refusal := .next (startRead f.arg false s)

/-- CMD18, read multiple blocks (R140, decision D14). -/
def execCmd18 (f : FrameFields) (s : State) : Host.Outcome State Fault Refusal :=
  match s.cfg.multiBlockMode with
  | .single => .next (startRead f.arg true s)
  | .refuse => .refused .multiBlockRefused

/-- CMD24, write single block (R141). -/
def execCmd24 (f : FrameFields) (s : State) : Host.Outcome State Fault Refusal := .next (startWrite f.arg false s)

/-- CMD25, write multiple blocks (R142, decision D14). -/
def execCmd25 (f : FrameFields) (s : State) : Host.Outcome State Fault Refusal :=
  match s.cfg.multiBlockMode with
  | .single => .next (startWrite f.arg true s)
  | .refuse => .refused .multiBlockRefused

/-- CMD13, send status (R143). -/
def execCmd13 (s : State) : Host.Outcome State Fault Refusal := .next (queue .r2Status .idle s)

/-- CMD55 in IDLE (R144). -/
def execCmd55Idle (s : State) : Host.Outcome State Fault Refusal := .next (queue .r1Ready .idleAcmd s)

/-- CMD58, read OCR (R145). -/
def execCmd58 (s : State) : Host.Outcome State Fault Refusal := .next (queue (.r3Ocr s.cfg.ocrValue) .idle s)

/-- ILLEGAL_IDLE (R146). -/
def execIllegalIdle (s : State) : Host.Outcome State Fault Refusal := .next (illegalCommand .idle s)

/-- Run the command row the decoder gave; the other rows are no commands (log 11). -/
def runCommand (i : Instr) (s : State) : Host.Outcome State Fault Refusal :=
  match i with
  | .cmd0 _ => execCmd0 s
  | .illegalBoot _ _ => execIllegalBoot s
  | .cmd55 _ => execCmd55 s
  | .illegalSpi _ _ => execIllegalSpi s
  | .acmd41 _ => execAcmd41 s
  | .illegalSpiAcmd _ _ => execIllegalSpiAcmd s
  | .illegalIdleAcmd _ _ => execIllegalIdleAcmd s
  | .cmd17 f => execCmd17 f s
  | .cmd18 f => execCmd18 f s
  | .cmd24 f => execCmd24 f s
  | .cmd25 f => execCmd25 f s
  | .cmd13 _ => execCmd13 s
  | .cmd55Idle _ => execCmd55Idle s
  | .cmd58 _ => execCmd58 s
  | .illegalIdle _ _ => execIllegalIdle s
  | .frameByte _ | .startBlockToken | .discardedByte _ | .writeDataByte _ | .writeCrcByte0 _ | .writeCrcByte1 _
  | .txFiller | .txViolation _ | .csEvent _ | .mosiByte _ | .resetEvent => .refused .notACommandFrame

/-- `Dispatch()`: decode the frame in `cmd_buf` in the current phase and run its row (41_commands.md R130). -/
def dispatchFrame (s : State) : Host.Outcome State Fault Refusal :=
  match decodeFrame s.decodeCtx s.frameWord with
  | .ok i => runCommand i s
  | .error _ => .refused .frameOutsideCommandPhase

end Sys2Proof.Machine
end

