-- ==== Sys2Proof/Machine/ByteEngine.lean ====
section
/-! DEFINITION. The byte engine: Produce (40_byte_engine.md R108 to R112) and the meanings of a MOSI byte in each phase,
Accept (R101 to R107). -/

namespace Sys2Proof.Machine

/-! ### Produce -/

/-- Produce in CMD_RESPONSE (R109). -/
def produceResponse (s : State) : Except Fault (Byte × State) :=
  if _h : s.respIdx.val < s.respLen.val then
    if _hlast : s.respIdx.val + 1 = s.respLen.val then .ok (s.respBuf[s.respIdx], endResponse s)
    else .ok (s.respBuf[s.respIdx], { s with respIdx := ⟨s.respIdx.val + 1, by omega⟩ })
  else .error .responseIndexOutOfRange

/-- Produce in READ_BLOCK (R110). -/
def produceBlockByte (s : State) : Except Fault (Byte × State) :=
  match s.memRead s.head with
  | none => .error .storeAddressOutOfRange
  | some out =>
    if _hlast : s.blkCount.val = 511 then
      .ok (out, queue (.crcTrailer (fold16 s.crc16 out)) .idle
        { s with crc16 := fold16 s.crc16 out, head := s.head + 1, blkCount := 0 })
    else
      .ok (out, { s with
        crc16 := fold16 s.crc16 out
        head := s.head + 1
        blkCount := ⟨s.blkCount.val + 1, by omega⟩ })

/-- `Produce()`: the byte for MISO and the state it leaves (R108; R111 in WRITE_CRC, R112 elsewhere). -/
def produce (s : State) : Except Fault (Byte × State) :=
  match s.phase with
  | .cmdResponse => produceResponse s
  | .readBlock => produceBlockByte s
  | .writeCrc => .ok (dataAccepted, s)
  | .boot | .spi | .spiAcmd | .idle | .idleAcmd | .writeStbt | .writeListen => .ok (fillerByte, s)

/-! ### Accept -/

/-- FRAME_BYTE: assemble a frame, dispatch it on its sixth byte (R102). -/
def execFrameByte (b : Byte) (s : State) : Host.Outcome State Fault Refusal :=
  if s.cmdLen = 0 ∧ b = fillerByte then .next s
  else if _h : s.cmdLen.val = 5 then
    andThen (dispatchFrame { s with cmdBuf := s.cmdBuf.set s.cmdLen b }) fun t => .next { t with cmdLen := 0 }
  else
    .next { s with cmdBuf := s.cmdBuf.set s.cmdLen b, cmdLen := ⟨s.cmdLen.val + 1, by omega⟩ }

/-- START_BLOCK_TOKEN (R103). -/
def execStartBlockToken (s : State) : Host.Outcome State Fault Refusal :=
  .next { s with phase := .writeListen, crc16 := crc16Init, blkCount := 0 }

/-- DISCARDED_BYTE: no state change (R103). -/
def execDiscardedByte (s : State) : Host.Outcome State Fault Refusal := .next s

/-- WRITE_DATA_BYTE (R104). -/
def execWriteDataByte (b : Byte) (s : State) : Host.Outcome State Fault Refusal :=
  match s.memWrite s.head b with
  | none => .fault .storeAddressOutOfRange
  | some t =>
    if _hlast : s.blkCount.val = 511 then
      .next { t with
        crc16 := fold16 s.crc16 b
        head := s.head + 1
        blkCount := 0
        phase := .writeCrc
        wcrcIdx := 0
        wcrcOk := true }
    else
      .next { t with
        crc16 := fold16 s.crc16 b
        head := s.head + 1
        blkCount := ⟨s.blkCount.val + 1, by omega⟩ }

/-- WRITE_CRC_BYTE0: the first byte against the LOW byte of the CRC (R105, 90_conflicts.md C1). -/
def execWriteCrcByte0 (b : Byte) (s : State) : Host.Outcome State Fault Refusal :=
  .next { s with wcrcOk := s.wcrcOkAfter (crcLow s.crc16) b, wcrcIdx := 1 }

/-- WRITE_CRC_BYTE1: the second byte against the HIGH byte, then the data-response token; a mismatch is the coded error
0x0B (R106, 60_exceptions.md R205). -/
def execWriteCrcByte1 (b : Byte) (s : State) : Host.Outcome State Fault Refusal :=
  let ok := s.wcrcOkAfter (crcHigh s.crc16) b
  .next (queue (.dataResponse ok) .idle { s with wcrcOk := ok, wcrcIdx := 0 })

/-- TX_FILLER: no effect (R107). -/
def execTxFiller (s : State) : Host.Outcome State Fault Refusal := .next s

/-- TX_VIOLATION: the protocol violation (R107, 60_exceptions.md R204). -/
def execTxViolation (s : State) : Host.Outcome State Fault Refusal := .next (protocolViolation s)

/-- Run the byte row the decoder gave; the other rows are no MOSI bytes (log 11). -/
def runByte (i : Instr) (s : State) : Host.Outcome State Fault Refusal :=
  match i with
  | .frameByte b => execFrameByte b s
  | .startBlockToken => execStartBlockToken s
  | .discardedByte _ => execDiscardedByte s
  | .writeDataByte b => execWriteDataByte b s
  | .writeCrcByte0 b => execWriteCrcByte0 b s
  | .writeCrcByte1 b => execWriteCrcByte1 b s
  | .txFiller => execTxFiller s
  | .txViolation _ => execTxViolation s
  | .cmd0 _ | .illegalBoot _ _ | .cmd55 _ | .illegalSpi _ _ | .acmd41 _ | .illegalSpiAcmd _ _
  | .illegalIdleAcmd _ _ | .cmd17 _ | .cmd18 _ | .cmd24 _ | .cmd25 _ | .cmd13 _ | .cmd55Idle _ | .cmd58 _
  | .illegalIdle _ _ | .csEvent _ | .mosiByte _ | .resetEvent => .refused .notAMosiByte

/-- `Accept(b)`: the byte's row in the current phase (R101). -/
def accept (b : Byte) (s : State) : Host.Outcome State Fault Refusal := runByte (decodeByte s.decodeCtx b) s

end Sys2Proof.Machine
end

