-- ==== Sys2Proof/Machine/Adapter.lean ====
section
/-! DEFINITION. The SPI and chip-select adapter: the meanings of the port events (43_adapter.md R181 to R184). -/

namespace Sys2Proof.Machine

/-- CS_EVENT: physical low is logically selected; nothing else changes (R181). -/
def execCsEvent (level : BitVec 1) (s : State) : Host.Outcome State Fault Refusal :=
  .next { s with csSel := decide (level = 0) }

/-- MOSI_BYTE: ignored while deselected (R182); while selected Produce, then the MISO event, then Accept on the state
Produce left (R183, 90_conflicts.md C8). -/
def execMosiByte (b : Byte) (s : State) : Host.Outcome State Fault Refusal :=
  if s.csSel then
    match produce s with
    | .error r => .fault r
    | .ok (out, t) => accept b (emitMiso out t)
  else .next s

/-- RESET_EVENT: whether selected or not (R184). -/
def execResetEvent (s : State) : Host.Outcome State Fault Refusal := .next (fullReset s)

end Sys2Proof.Machine
end

