-- ==== Sys2Proof/Machine/Dispatch.lean ====
section
/-! DEFINITION. One arm for each constructor of Instr. -/

namespace Sys2Proof.Machine

def exec (i : Instr) (s : State) : Host.Outcome State Fault Refusal :=
  match i with
  | .cmd0 _ => Sys2Proof.Machine.execCmd0 s
  | .illegalBoot _ _ => Sys2Proof.Machine.execIllegalBoot s
  | .cmd55 _ => Sys2Proof.Machine.execCmd55 s
  | .illegalSpi _ _ => Sys2Proof.Machine.execIllegalSpi s
  | .acmd41 _ => Sys2Proof.Machine.execAcmd41 s
  | .illegalSpiAcmd _ _ => Sys2Proof.Machine.execIllegalSpiAcmd s
  | .illegalIdleAcmd _ _ => Sys2Proof.Machine.execIllegalIdleAcmd s
  | .cmd17 f => Sys2Proof.Machine.execCmd17 f s
  | .cmd18 f => Sys2Proof.Machine.execCmd18 f s
  | .cmd24 f => Sys2Proof.Machine.execCmd24 f s
  | .cmd25 f => Sys2Proof.Machine.execCmd25 f s
  | .cmd13 _ => Sys2Proof.Machine.execCmd13 s
  | .cmd55Idle _ => Sys2Proof.Machine.execCmd55Idle s
  | .cmd58 _ => Sys2Proof.Machine.execCmd58 s
  | .illegalIdle _ _ => Sys2Proof.Machine.execIllegalIdle s
  | .frameByte b => Sys2Proof.Machine.execFrameByte b s
  | .startBlockToken => Sys2Proof.Machine.execStartBlockToken s
  | .discardedByte _ => Sys2Proof.Machine.execDiscardedByte s
  | .writeDataByte b => Sys2Proof.Machine.execWriteDataByte b s
  | .writeCrcByte0 b => Sys2Proof.Machine.execWriteCrcByte0 b s
  | .writeCrcByte1 b => Sys2Proof.Machine.execWriteCrcByte1 b s
  | .txFiller => Sys2Proof.Machine.execTxFiller s
  | .txViolation _ => Sys2Proof.Machine.execTxViolation s
  | .csEvent level => Sys2Proof.Machine.execCsEvent level s
  | .mosiByte b => Sys2Proof.Machine.execMosiByte b s
  | .resetEvent => Sys2Proof.Machine.execResetEvent s

end Sys2Proof.Machine
end

