-- ==== Sys2Proof/Machine/Step.lean ====
section
/-! DEFINITION. One step: the host's next port event, to completion (00_scope.md R6, 43_adapter.md R185). -/

namespace Sys2Proof.Machine

/-- Take the next port event and run its instruction. With no event the engine waits: it never acts without one
(43_adapter.md R185, log 4). -/
def step (s : State) : Host.Outcome State Fault Refusal :=
  match s.inputs with
  | [] => .next s
  | e :: rest => exec (decodeEvent e) { s with inputs := rest }

/-- The state in which the very next step runs the instruction whose bits are `w` (log 6). A frame is placed with its
first five bytes already in `cmd_buf` and its sixth as the next MOSI byte; a MOSI byte as the next event; both while
selected and in the phase `tablePhase` names, for 0xFF in CMD_RESPONSE with two bytes still to send. A port event is
the next event. -/
def State.withFetchWord (s : State) (nbits w : Nat) : State :=
  match tableUnit nbits w with
  | none => s
  | some (.frame f) =>
    { s with
      csSel := true
      phase := tablePhase (.frame f)
      cmdBuf := #v[(frameBytes f)[0], (frameBytes f)[1], (frameBytes f)[2], (frameBytes f)[3], (frameBytes f)[4],
        s.cmdBuf[5]]
      cmdLen := 5
      inputs := .mosi (frameBytes f)[5] :: s.inputs }
  | some (.byte b) =>
    if b = fillerByte then
      { s with csSel := true, phase := .cmdResponse, respLen := 2, respIdx := 0, inputs := .mosi b :: s.inputs }
    else { s with csSel := true, phase := tablePhase (.byte b), inputs := .mosi b :: s.inputs }
  | some (.event e) => { s with inputs := e :: s.inputs }

end Sys2Proof.Machine
end

