-- ==== Sys2Proof/Machine/Transactions.lean ====
section
/-! DEFINITION. The host's transaction notation, as lists of port events (30_encoding.md R83, R84, decision D26). It is
the host's side of the bus: no meaning of the engine reads it. -/

namespace Sys2Proof.Machine

/-- `SEL` (R83). -/
def selectEvents : List PortEvent := [.cs 0]

/-- `DESEL` (R83). -/
def deselectEvents : List PortEvent := [.cs 1]

/-- `RESET` (R83). -/
def resetEvents : List PortEvent := [.reset]

/-- `RAW b0 b1 ...`, and `DATA` of a list of bytes (R83). -/
def rawEvents (bs : List Byte) : List PortEvent := bs.map .mosi

/-- `FILL k` (R83). -/
def fillEvents (k : Nat) : List PortEvent := rawEvents (List.replicate k fillerByte)

/-- `TOKEN` (R83). -/
def tokenEvents : List PortEvent := rawEvents [startToken]

/-- `WCRC x y` (R83). -/
def wcrcEvents (x y : Byte) : List PortEvent := rawEvents [x, y]

/-- The first five bytes of `CMD<n>(a)` (R83). -/
def commandHead (n : BitVec 6) (a : BitVec 32) : List Byte :=
  [(0x40 : Byte) ||| n.setWidth 8, a.extractLsb' 24 8, a.extractLsb' 16 8, a.extractLsb' 8 8, a.extractLsb' 0 8]

/-- The six bytes of `CMD<n>(a)`, with the SD convention's CRC byte (R83, 42_crc.md R169). -/
def commandBytes (n : BitVec 6) (a : BitVec 32) : List Byte := commandHead n a ++ [crc7FrameByte (commandHead n a)]

/-- `CMD<n>(a)` (R83). -/
def commandEvents (n : BitVec 6) (a : BitVec 32) : List PortEvent := rawEvents (commandBytes n a)

/-- `ACMD41(a)` (R84). -/
def acmd41Events (a : BitVec 32) : List PortEvent :=
  commandEvents 55 0 ++ fillEvents 1 ++ commandEvents 41 a ++ fillEvents 1

/-- `INIT` (R84). -/
def initEvents : List PortEvent := selectEvents ++ commandEvents 0 0 ++ fillEvents 1 ++ acmd41Events 0

/-- `READ(a)` (R84). -/
def readEvents (a : BitVec 32) : List PortEvent := commandEvents 17 a ++ fillEvents 516

/-- `WRITE(a, d)`, the CRC's low byte first (R84, 40_byte_engine.md R105). -/
def writeEvents (a : BitVec 32) (d : List Byte) : List PortEvent :=
  commandEvents 24 a ++ fillEvents 1 ++ tokenEvents ++ rawEvents d
    ++ wcrcEvents (crcLow (crc16Of d)) (crcHigh (crc16Of d)) ++ fillEvents 1

end Sys2Proof.Machine
end

