-- ==== Sys2Proof/Safety.lean ====
section
/-! DEFINITION. What the claims speak of: the invariant of 10_state.md R35, the bytes a response has still to send,
what it is to have queued a response, and runs of several steps. -/

namespace Sys2Proof

open Sys2Proof.Machine

/-- The relations between registers that hold between events (10_state.md R35, its items by number), the store's
canonical form and a valid configuration. `blockAhead` is the model's own strengthening (DEDUCED, log 16): R35 item 4
must also hold ahead of a block that is announced and not begun. -/
structure Inv (s : State) : Prop where
  /-- R35 item 1. -/
  cmdLen_phase : 0 < s.cmdLen.val → s.phase.isCommand = true
  /-- R35 item 2. -/
  response_iff : s.phase = .cmdResponse ↔ 0 < s.respLen.val
  /-- R35 item 2. -/
  respIdx_lt : s.phase = .cmdResponse → s.respIdx.val < s.respLen.val
  /-- R35 item 3. -/
  blkCount_phase : 0 < s.blkCount.val → s.phase = .readBlock ∨ s.phase = .writeListen
  /-- R35 item 4. -/
  blockFits : s.phase = .readBlock ∨ s.phase = .writeListen →
    s.head + (Config.blockLen - s.blkCount.val) ≤ s.cfg.capacity
  /-- The block to come fits as well (log 16). -/
  blockAhead : s.phase = .writeStbt ∨ s.phase = .cmdResponse ∧ (s.afterSend = .readBlock ∨ s.afterSend = .writeStbt) →
    s.head + Config.blockLen ≤ s.cfg.capacity
  /-- R35 item 5. -/
  wcrcIdx_phase : s.wcrcIdx = 1 → s.phase = .writeCrc
  /-- R35 item 6. -/
  afterSend_ne : s.afterSend ≠ .cmdResponse ∧ s.afterSend ≠ .writeListen ∧ s.afterSend ≠ .writeCrc
  /-- R35 item 7. -/
  head_le : s.head ≤ s.cfg.capacity
  /-- A valid instance (00_scope.md R8). -/
  cfg_valid : s.cfg.valid
  /-- The store's canonical form (log 3). -/
  store_wf : Memory.wf s.cfg.initialImage s.store = true
  /-- The store has no address from CAPACITY on (20_memory.md R50). -/
  store_lt : ∀ c ∈ s.store, c.1 < s.cfg.capacity

/-- The queued bytes still to send, the next one first (10_state.md R27). -/
def State.pending (s : State) : List Byte := (s.respBuf.toList.take s.respLen.val).drop s.respIdx.val

/-- `t` is a state in which the response `bytes` has been queued on `s`, to return to `next` (40_byte_engine.md R100).
The elements of `resp_buf` after the response keep their value. -/
structure Queued (s t : State) (bytes : List Byte) (next : Phase) : Prop where
  phase : t.phase = .cmdResponse
  afterSend : t.afterSend = next
  respIdx : t.respIdx.val = 0
  respLen : t.respLen.val = bytes.length
  pending : State.pending t = bytes
  kept : ∀ i : Fin 5, bytes.length ≤ i.val → t.respBuf[i] = s.respBuf[i]

/-- `t` and `s` differ in nothing but the phase and the response registers, and every byte of the store reads as
before. -/
structure ResponseOnly (s t : State) : Prop where
  rest : t = { s with
    phase := t.phase
    afterSend := t.afterSend
    respBuf := t.respBuf
    respLen := t.respLen
    respIdx := t.respIdx }
  memory : ∀ a, t.memRead a = s.memRead a

/-- The registers FullReset writes have their reset values (70_reset_and_hazards.md R230). -/
structure ProtocolReset (t : State) : Prop where
  phase : t.phase = .boot
  afterSend : t.afterSend = .boot
  cmdLen : t.cmdLen.val = 0
  cmdBuf : t.cmdBuf = #v[0, 0, 0, 0, 0, 0]
  respLen : t.respLen.val = 0
  respIdx : t.respIdx.val = 0
  respBuf : t.respBuf = #v[0, 0, 0, 0, 0]
  head : t.head = 0
  blkCount : t.blkCount.val = 0
  crc16 : t.crc16 = 0xFFFF
  wcrcIdx : t.wcrcIdx.val = 0
  wcrcOk : t.wcrcOk = true
  multi : t.multi = false

/-- What FullReset leaves alone: chip-select, configuration, store, and the two ports (70_reset_and_hazards.md R230,
20_memory.md R67). -/
structure ResetFrame (s t : State) : Prop where
  csSel : t.csSel = s.csSel
  cfg : t.cfg = s.cfg
  store : t.store = s.store
  memory : ∀ a, t.memRead a = s.memRead a
  inputs : t.inputs = s.inputs
  miso : t.miso = s.miso

/-- A CMD18 or CMD25 frame in IDLE wants only its sixth byte, and the instance refuses it: MULTI_BLOCK_MODE = REFUSE
(41_commands.md R140, R142). -/
def AwaitsRefusedFrame (s : State) : Prop :=
  s.cfg.multiBlockMode = .refuse ∧ s.phase = .idle ∧ s.cmdLen.val = 5 ∧
    ((s.cmdBuf[0]).extractLsb' 0 6 = (18 : BitVec 6) ∨ (s.cmdBuf[0]).extractLsb' 0 6 = (25 : BitVec 6))

/-- `k` steps, stopping at the first fault or refusal. -/
def runSteps : Nat → State → Host.Outcome State Fault Refusal
  | 0, s => .next s
  | k + 1, s => andThen (step s) (runSteps k)

end Sys2Proof
end

