-- ==== Sys2Proof/Certificates/Slice0/Obligations.lean ====
section
/-! DEFINITION. The statements about the model. Each docstring names the rule of spec/ it formalises, and the spec's own
decision (92_eei_decisions.md D<n>) or general-knowledge note where the rule rests on one. -/

open Sys2Proof Sys2Proof.Machine

/-! ### Encoding -/

/-- Decoding the unit of a well-formed instruction, in a context of its row, gives it back with every operand. -/
def Obligations.DecodeOfEncode : Prop :=
  ∀ (c : DecodeCtx) (i : Instr), i.wellFormed c.cmd0InSpiAcmd = true → i.inPhase c = true →
    decode c (encode i) = .ok i

/-- Whatever a unit decodes to encodes to that unit, belongs to the context's phase, and is well-formed if the unit is
one the host can send (30_encoding.md R72). -/
def Obligations.EncodeOfDecode : Prop :=
  ∀ (c : DecodeCtx) (u : CodeUnit) (i : Instr), decode c u = .ok i →
    encode i = u ∧ i.inPhase c = true ∧
      ((∀ w, u = .frame w → (frameBytes w)[0] ≠ 0xFF) → i.wellFormed c.cmd0InSpiAcmd = true)

/-- The six bytes of a well-formed command frame, sent in a phase of its row, are read back as that frame, and the
bytes after them are left (30_encoding.md R71, R72, R82). -/
def Obligations.StreamDecodesSentFrame : Prop :=
  ∀ (c : DecodeCtx) (i : Instr) (rest : List Byte), i.format = .commandFrame48 →
    i.wellFormed c.cmd0InSpiAcmd = true → i.inPhase c = true →
    decodeStream c ((encode i).bytes ++ rest) = .ok (i, rest)

/-- The command map (30_encoding.md R77, 41_commands.md R130; decisions D1, D2, D3): the row of every index in every
command-accepting phase, and no row in any other phase. -/
def Obligations.CommandMapOfEveryPhase : Prop :=
  ∀ (c : DecodeCtx) (w : FrameWord),
    (c.phase = .boot → decodeFrame c w =
      .ok (if frameIndex w = 0 then .cmd0 (frameFields w) else .illegalBoot (frameIndex w) (frameFields w))) ∧
    (c.phase = .spi → decodeFrame c w =
      .ok (if frameIndex w = 0 then .cmd0 (frameFields w)
        else if frameIndex w = 55 then .cmd55 (frameFields w)
        else .illegalSpi (frameIndex w) (frameFields w))) ∧
    (c.phase = .spiAcmd → decodeFrame c w =
      .ok (if frameIndex w = 0 ∧ c.cmd0InSpiAcmd = .reset then .cmd0 (frameFields w)
        else if frameIndex w = 41 then .acmd41 (frameFields w)
        else .illegalSpiAcmd (frameIndex w) (frameFields w))) ∧
    (c.phase = .idleAcmd → decodeFrame c w =
      .ok (if frameIndex w = 0 then .cmd0 (frameFields w)
        else .illegalIdleAcmd (frameIndex w) (frameFields w))) ∧
    (c.phase = .idle →
      (frameIndex w = 0 → decodeFrame c w = .ok (.cmd0 (frameFields w))) ∧
      (frameIndex w = 13 → decodeFrame c w = .ok (.cmd13 (frameFields w))) ∧
      (frameIndex w = 17 → decodeFrame c w = .ok (.cmd17 (frameFields w))) ∧
      (frameIndex w = 18 → decodeFrame c w = .ok (.cmd18 (frameFields w))) ∧
      (frameIndex w = 24 → decodeFrame c w = .ok (.cmd24 (frameFields w))) ∧
      (frameIndex w = 25 → decodeFrame c w = .ok (.cmd25 (frameFields w))) ∧
      (frameIndex w = 55 → decodeFrame c w = .ok (.cmd55Idle (frameFields w))) ∧
      (frameIndex w = 58 → decodeFrame c w = .ok (.cmd58 (frameFields w))) ∧
      (frameIndex w ∉ ([0, 13, 17, 18, 24, 25, 55, 58] : List (BitVec 6)) →
        decodeFrame c w = .ok (.illegalIdle (frameIndex w) (frameFields w)))) ∧
    (c.phase.isCommand = false → decodeFrame c w = .error (.notACommandPhase c.phase))

/-- The frame held in `cmd_buf` is the six bytes most significant first: index, argument and CRC byte are read from it
as 30_encoding.md R73 and R74 write them. -/
def Obligations.FrameFieldsOfBytes : Prop :=
  ∀ v : Vector Byte 6,
    frameIndex (frameOfBytes v) = (v[0]).extractLsb' 0 6 ∧
    (frameFields (frameOfBytes v)).framing = (v[0]).extractLsb' 6 2 ∧
    (frameFields (frameOfBytes v)).arg =
      ((v[1].setWidth 32) <<< 24 ||| (v[2].setWidth 32) <<< 16 ||| (v[3].setWidth 32) <<< 8 ||| v[4].setWidth 32) ∧
    (frameFields (frameOfBytes v)).crc = v[5] ∧
    frameBytes (frameOfBytes v) = v

/-- A few words written out from the opcode table's encodings decode to the instructions they stand for. -/
def Obligations.SpecWordsDecode : Prop :=
  decode ⟨.idle, 0, .reset⟩ (.frame 0x51001E848091) = .ok (.cmd17 ⟨1, 2000000, 0x91⟩) ∧
  decode ⟨.spi, 0, .reset⟩ (.frame 0x770000000065) = .ok (.cmd55 ⟨1, 0, 0x65⟩) ∧
  decode ⟨.writeStbt, 0, .reset⟩ (.byte 0xFE) = .ok .startBlockToken ∧
  decode ⟨.readBlock, 0, .reset⟩ (.byte 0xFF) = .ok .txFiller ∧
  decode ⟨.boot, 0, .reset⟩ (.event (.cs 0)) = .ok (.csEvent 0)

/-! ### The step and its layers -/

/-- A step runs the instruction of the host's next event, with that event taken from the inputs; with no event the
engine does not act (43_adapter.md R185). -/
def Obligations.StepRunsNextEvent : Prop :=
  ∀ s : State,
    (∀ e rest, s.inputs = e :: rest → step s = exec (decodeEvent e) { s with inputs := rest }) ∧
    (s.inputs = [] → step s = .next s)

/-- An exchange (43_adapter.md R183): on a selected MOSI byte the byte of Produce is emitted first, and then the byte is
accepted as the instruction its row is in the phase Produce left. -/
def Obligations.ExchangeProducesThenAccepts : Prop :=
  ∀ (s t : State) (b out : Byte), s.csSel = true → produce s = .ok (out, t) →
    exec (.mosiByte b) s =
      exec (decodeByte t.decodeCtx b) { t with miso := t.miso ++ [out] }

/-- The meaning of a MOSI byte by phase (30_encoding.md R70, 40_byte_engine.md R101): the cases cover all ten phases. -/
def Obligations.ByteMeaningOfEveryPhase : Prop :=
  ∀ (c : DecodeCtx) (b : Byte),
    (c.phase.isCommand = true → decodeByte c b = .frameByte b) ∧
    (c.phase = .writeStbt → b = 0xFE → decodeByte c b = .startBlockToken) ∧
    (c.phase = .writeStbt → b ≠ 0xFE → decodeByte c b = .discardedByte b) ∧
    (c.phase = .writeListen → decodeByte c b = .writeDataByte b) ∧
    (c.phase = .writeCrc → c.wcrcIdx = 0 → decodeByte c b = .writeCrcByte0 b) ∧
    (c.phase = .writeCrc → c.wcrcIdx = 1 → decodeByte c b = .writeCrcByte1 b) ∧
    (c.phase.isTx = true → b = 0xFF → decodeByte c b = .txFiller) ∧
    (c.phase.isTx = true → b ≠ 0xFF → decodeByte c b = .txViolation b)

/-- Frame assembly (40_byte_engine.md R102): filler changes nothing; a byte before the sixth is captured; the sixth byte
dispatches the frame in the phase it arrived in, as the instruction it decodes to, and `cmd_len` returns to 0. -/
def Obligations.FrameByteAssemblesAndDispatches : Prop :=
  ∀ (s : State) (b : Byte), s.phase.isCommand = true →
    (s.cmdLen.val = 0 → b = 0xFF → exec (.frameByte b) s = .next s) ∧
    (∀ n : Fin 6, s.cmdLen.val < 5 → ¬(s.cmdLen.val = 0 ∧ b = 0xFF) → n.val = s.cmdLen.val + 1 →
      exec (.frameByte b) s = .next { s with cmdBuf := s.cmdBuf.set s.cmdLen b, cmdLen := n }) ∧
    (s.cmdLen.val = 5 → ∃ i : Instr, i.format = .commandFrame48 ∧
      decodeFrame s.decodeCtx (frameOfBytes (s.cmdBuf.set 5 b)) = .ok i ∧
      exec (.frameByte b) s =
        match exec i { s with cmdBuf := s.cmdBuf.set 5 b } with
        | .next t => .next { t with cmdLen := 0 }
        | o => o)

/-- Every frame byte completes, and a sixth byte always queues a response (40_byte_engine.md R114), but for a CMD18 or
CMD25 that the instance refuses (41_commands.md R140, R142, decision D14): that one is refused by name. -/
def Obligations.FrameByteCompletesUnlessRefused : Prop :=
  ∀ (s : State) (b : Byte), s.phase.isCommand = true →
    (¬ AwaitsRefusedFrame s → ∃ t, exec (.frameByte b) s = .next t ∧ (s.cmdLen.val = 5 → t.phase = .cmdResponse)) ∧
    (AwaitsRefusedFrame s → exec (.frameByte b) s = .refused .multiBlockRefused)

/-! ### Commands -/

/-- CMD0 (41_commands.md R132; D3 for SPI_ACMD): legal in every command-accepting phase but SPI_ACMD under ILLEGAL; a
full reset, then the idle R1, then SPI. Nothing else is touched. -/
def Obligations.Cmd0ResetsAndAnswersIdle : Prop :=
  (∀ (c : DecodeCtx) (w : FrameWord), c.phase.isCommand = true →
    ¬(c.phase = .spiAcmd ∧ c.cmd0InSpiAcmd = .illegal) → frameIndex w = 0 →
    decodeFrame c w = .ok (.cmd0 (frameFields w))) ∧
  (∀ (s : State) (f : FrameFields), ∃ t u, exec (.cmd0 f) s = .next t ∧
    ProtocolReset u ∧ ResetFrame s u ∧ Queued u t [0x01] .spi ∧ ResponseOnly u t)

/-- Illegal commands (60_exceptions.md R202; 41_commands.md R133, R135, R137, R138, R146): the illegal-command R1 is
queued, the card stays in its phase, except that IDLE_ACMD returns to IDLE, and nothing else changes. -/
def Obligations.IllegalCommandsAnswerAndStay : Prop :=
  ∀ (s : State) (idx : BitVec 6) (f : FrameFields),
    (∃ t, exec (.illegalBoot idx f) s = .next t ∧ Queued s t [s.cfg.illegalR1] .boot ∧ ResponseOnly s t) ∧
    (∃ t, exec (.illegalSpi idx f) s = .next t ∧ Queued s t [s.cfg.illegalR1] .spi ∧ ResponseOnly s t) ∧
    (∃ t, exec (.illegalSpiAcmd idx f) s = .next t ∧ Queued s t [s.cfg.illegalR1] .spiAcmd ∧ ResponseOnly s t) ∧
    (∃ t, exec (.illegalIdleAcmd idx f) s = .next t ∧ Queued s t [s.cfg.illegalR1] .idle ∧ ResponseOnly s t) ∧
    (∃ t, exec (.illegalIdle idx f) s = .next t ∧ Queued s t [s.cfg.illegalR1] .idle ∧ ResponseOnly s t)

/-- The application-command prefix: idle R1 and SPI_ACMD from SPI (41_commands.md R134), R1 and IDLE_ACMD from IDLE
(R144). Nothing else changes. -/
def Obligations.Cmd55EntersTheAcmdPhase : Prop :=
  (∀ (c : DecodeCtx) (w : FrameWord), frameIndex w = 55 →
    (c.phase = .spi → decodeFrame c w = .ok (.cmd55 (frameFields w))) ∧
    (c.phase = .idle → decodeFrame c w = .ok (.cmd55Idle (frameFields w)))) ∧
  (∀ (s : State) (f : FrameFields),
    (∃ t, exec (.cmd55 f) s = .next t ∧ Queued s t [0x01] .spiAcmd ∧ ResponseOnly s t) ∧
    (∃ t, exec (.cmd55Idle f) s = .next t ∧ Queued s t [0x00] .idleAcmd ∧ ResponseOnly s t))

/-- ACMD41 (41_commands.md R136, D30), CMD13 (R143, D7) and CMD58 (R145, D6): R1 ready, the R2 without errors and the
R3 with OCR_VALUE big-endian, each returning to IDLE. Nothing else changes. -/
def Obligations.InitStatusAndOcrAnswers : Prop :=
  ∀ (s : State) (f : FrameFields),
    (∃ t, exec (.acmd41 f) s = .next t ∧ Queued s t [0x00] .idle ∧ ResponseOnly s t) ∧
    (∃ t, exec (.cmd13 f) s = .next t ∧ Queued s t [0x00, 0x00] .idle ∧ ResponseOnly s t) ∧
    (∃ t, exec (.cmd58 f) s = .next t ∧
      Queued s t [0x00, s.cfg.ocrValue.extractLsb' 24 8, s.cfg.ocrValue.extractLsb' 16 8,
        s.cfg.ocrValue.extractLsb' 8 8, s.cfg.ocrValue.extractLsb' 0 8] .idle ∧ ResponseOnly s t)

/-- A block read in range (41_commands.md R139, D5; R140, D14 for CMD18 under SINGLE): the cursor is set, the CRC and the
byte count start over, the preamble is queued and READ_BLOCK follows. Nothing else changes. -/
def Obligations.ReadCommandsStartABlock : Prop :=
  ∀ (s : State) (f : FrameFields), f.arg.toNat + 512 ≤ s.cfg.capacity →
    (∃ t u, exec (.cmd17 f) s = .next t ∧
      u = { s with head := f.arg.toNat, multi := false, crc16 := 0xFFFF, blkCount := 0 } ∧
      Queued u t (if s.cfg.readR1Prefix then [0x00, 0xFE] else [0xFE]) .readBlock ∧ ResponseOnly u t) ∧
    (s.cfg.multiBlockMode = .single → ∃ t u, exec (.cmd18 f) s = .next t ∧
      u = { s with head := f.arg.toNat, multi := true, crc16 := 0xFFFF, blkCount := 0 } ∧
      Queued u t (if s.cfg.readR1Prefix then [0x00, 0xFE] else [0xFE]) .readBlock ∧ ResponseOnly u t)

/-- CMD24 (41_commands.md R141): in range the cursor is set, R1 is queued and WRITE_STBT follows; out of range the
address error is queued, to return to IDLE. Nothing else changes. -/
def Obligations.SingleBlockWriteChecksAndAwaitsTheToken : Prop :=
  ∀ (s : State) (f : FrameFields),
    (f.arg.toNat + 512 ≤ s.cfg.capacity →
      ∃ t u, exec (.cmd24 f) s = .next t ∧ u = { s with head := f.arg.toNat, multi := false } ∧
        Queued u t [0x00] .writeStbt ∧ ResponseOnly u t) ∧
    (s.cfg.capacity < f.arg.toNat + 512 →
      ∃ t, exec (.cmd24 f) s = .next t ∧ Queued s t [0x20] .idle ∧ ResponseOnly s t)

/-- CMD25 in range under MULTI_BLOCK_MODE = SINGLE (41_commands.md R142, D14): as CMD24, with the flag `multi` set. -/
def Obligations.MultiBlockWriteAwaitsTheToken : Prop :=
  ∀ (s : State) (f : FrameFields), f.arg.toNat + 512 ≤ s.cfg.capacity → s.cfg.multiBlockMode = .single →
    ∃ t u, exec (.cmd25 f) s = .next t ∧ u = { s with head := f.arg.toNat, multi := true } ∧
      Queued u t [0x00] .writeStbt ∧ ResponseOnly u t

/-- The address error (60_exceptions.md R203): a block command out of range answers 0x20 and returns to IDLE; cursor,
flags, CRC, byte count and store are unchanged. CMD18 and CMD25 under SINGLE. -/
def Obligations.OutOfRangeBlocksAreAddressErrors : Prop :=
  ∀ (s : State) (f : FrameFields), s.cfg.capacity < f.arg.toNat + 512 →
    (∃ t, exec (.cmd17 f) s = .next t ∧ Queued s t [0x20] .idle ∧ ResponseOnly s t) ∧
    (∃ t, exec (.cmd24 f) s = .next t ∧ Queued s t [0x20] .idle ∧ ResponseOnly s t) ∧
    (s.cfg.multiBlockMode = .single →
      (∃ t, exec (.cmd18 f) s = .next t ∧ Queued s t [0x20] .idle ∧ ResponseOnly s t) ∧
      (∃ t, exec (.cmd25 f) s = .next t ∧ Queued s t [0x20] .idle ∧ ResponseOnly s t))

/-- Under MULTI_BLOCK_MODE = REFUSE the frames of CMD18 and CMD25 have no meaning (41_commands.md R140, R142, D14). -/
def Obligations.MultiBlockRefusedByConfiguration : Prop :=
  ∀ (s : State) (f : FrameFields), s.cfg.multiBlockMode = .refuse →
    exec (.cmd18 f) s = .refused .multiBlockRefused ∧ exec (.cmd25 f) s = .refused .multiBlockRefused

/-- Framing bits and CRC byte are never used (30_encoding.md R74, R75; D17), and the argument only by the block commands
(41_commands.md R147; D30): two frames with one index, and for a block command in IDLE one argument, act alike. -/
def Obligations.IgnoredFrameFieldsHaveNoEffect : Prop :=
  ∀ (c : DecodeCtx) (w w' : FrameWord) (i i' : Instr) (s : State),
    frameIndex w = frameIndex w' →
    (c.phase = .idle → frameIndex w ∈ ([17, 18, 24, 25] : List (BitVec 6)) →
      (frameFields w).arg = (frameFields w').arg) →
    decodeFrame c w = .ok i → decodeFrame c w' = .ok i' → exec i s = exec i' s

/-! ### Bytes of a written block -/

/-- WRITE_STBT (40_byte_engine.md R103, D29): 0xFE starts the data with a fresh CRC and count; any other byte is
discarded. Nothing else changes. -/
def Obligations.StartTokenOpensTheBlock : Prop :=
  ∀ (s : State) (b : Byte),
    (∃ t, exec .startBlockToken s = .next t ∧
      t = { s with phase := .writeListen, crc16 := 0xFFFF, blkCount := 0 } ∧ ∀ a, t.memRead a = s.memRead a) ∧
    exec (.discardedByte b) s = .next s

/-- WRITE_LISTEN (40_byte_engine.md R104): the byte is stored at the cursor and nowhere else, folded into the CRC, and the
cursor advances; the 512th byte moves on to WRITE_CRC. On a store in canonical form (kept by every step: InvKeptByStep). -/
def Obligations.WriteDataByteStoresAtHead : Prop :=
  ∀ (s : State) (b : Byte), s.head < s.cfg.capacity → Memory.wf s.cfg.initialImage s.store = true →
    ∃ t, exec (.writeDataByte b) s = .next t ∧
      t.memRead s.head = some b ∧ (∀ a, a ≠ s.head → t.memRead a = s.memRead a) ∧
      t.crc16 = fold16 s.crc16 b ∧ t.head = s.head + 1 ∧
      (s.blkCount.val = 511 → t.blkCount.val = 0 ∧ t.phase = .writeCrc ∧ t.wcrcIdx.val = 0 ∧ t.wcrcOk = true) ∧
      (s.blkCount.val ≠ 511 → t.blkCount.val = s.blkCount.val + 1 ∧ t.phase = s.phase ∧
        t.wcrcIdx = s.wcrcIdx ∧ t.wcrcOk = s.wcrcOk) ∧
      t = { s with
        store := t.store
        crc16 := t.crc16
        head := t.head
        blkCount := t.blkCount
        phase := t.phase
        wcrcIdx := t.wcrcIdx
        wcrcOk := t.wcrcOk }

/-- The first write-CRC byte against the low half of the CRC (40_byte_engine.md R105). Nothing else changes. -/
def Obligations.FirstCrcByteChecksTheLowHalf : Prop :=
  ∀ (s : State) (b : Byte), ∃ t, exec (.writeCrcByte0 b) s = .next t ∧
    (s.cfg.crcEnforce = true → b ≠ s.crc16.extractLsb' 0 8 → t.wcrcOk = false) ∧
    (s.cfg.crcEnforce = false ∨ b = s.crc16.extractLsb' 0 8 → t.wcrcOk = s.wcrcOk) ∧
    t.wcrcIdx.val = 1 ∧
    t = { s with wcrcOk := t.wcrcOk, wcrcIdx := t.wcrcIdx } ∧ ∀ a, t.memRead a = s.memRead a

/-- The second write-CRC byte against the high half, and the data-response token (40_byte_engine.md R106, D18; the CRC
error of 60_exceptions.md R205). The store is unchanged whatever the verdict. -/
def Obligations.SecondCrcByteQueuesTheToken : Prop :=
  ∀ (s : State) (b : Byte), ∃ t u, exec (.writeCrcByte1 b) s = .next t ∧
    (s.cfg.crcEnforce = true → b ≠ s.crc16.extractLsb' 8 8 → u.wcrcOk = false) ∧
    (s.cfg.crcEnforce = false ∨ b = s.crc16.extractLsb' 8 8 → u.wcrcOk = s.wcrcOk) ∧
    u.wcrcIdx.val = 0 ∧ u = { s with wcrcOk := u.wcrcOk, wcrcIdx := u.wcrcIdx } ∧
    (u.wcrcOk = true → Queued u t [0x05] .idle) ∧ (u.wcrcOk = false → Queued u t [0x0B] .idle) ∧
    ResponseOnly u t ∧ ∀ a, t.memRead a = s.memRead a

/-- The verdict on a whole trailer (70_reset_and_hazards.md R242 from 40_byte_engine.md R105, R106, R111; log 13): two
selected MOSI bytes in WRITE_CRC answer the placeholder 0x05 twice (D31); both are consumed, and the token that follows
is 0x05 exactly if enforcement is off or the CRC's low byte came first and its high byte second (D18). -/
def Obligations.WriteTrailerVerdictIsLowByteFirst : Prop :=
  ∀ (s : State) (x y : Byte) (rest : List PortEvent),
    s.phase = .writeCrc → s.wcrcIdx.val = 0 → s.wcrcOk = true → s.csSel = true →
    s.inputs = .mosi x :: .mosi y :: rest →
    ∃ t, runSteps 2 s = .next t ∧ t.miso = s.miso ++ [0x05, 0x05] ∧ t.phase = .cmdResponse ∧ t.afterSend = .idle ∧
      State.pending t = (if s.cfg.crcEnforce = false ∨ (x = s.crc16.extractLsb' 0 8 ∧ y = s.crc16.extractLsb' 8 8)
        then [0x05] else [0x0B]) ∧
      t.store = s.store ∧ t.inputs = rest

/-! ### Bytes while the engine transmits -/

/-- A byte accepted in CMD_RESPONSE or READ_BLOCK (40_byte_engine.md R107, 60_exceptions.md R204; D12): 0xFF has no
effect; any other byte is a protocol violation, a full reset that keeps chip-select, configuration and store. -/
def Obligations.BytesWhileTransmitting : Prop :=
  ∀ (s : State) (b : Byte), exec .txFiller s = .next s ∧
    ∃ t, exec (.txViolation b) s = .next t ∧ ProtocolReset t ∧ ResetFrame s t

/-! ### Produce -/

/-- Produce in CMD_RESPONSE (40_byte_engine.md R109; D13): the next queued byte; after the last one the phase recorded
before the response is restored. Nothing else changes. -/
def Obligations.ProduceSendsTheQueuedByte : Prop :=
  ∀ (s : State) (x : Byte) (more : List Byte), s.phase = .cmdResponse → State.pending s = x :: more →
    ∃ t, produce s = .ok (x, t) ∧
      (more ≠ [] → t.phase = .cmdResponse ∧ State.pending t = more ∧ t.respLen = s.respLen ∧
        t.respIdx.val = s.respIdx.val + 1) ∧
      (more = [] → t.phase = s.afterSend ∧ t.respLen.val = 0 ∧ t.respIdx.val = 0) ∧
      t = { s with phase := t.phase, respLen := t.respLen, respIdx := t.respIdx }

/-- Produce in READ_BLOCK (40_byte_engine.md R110): the store byte at the cursor, folded into the CRC, the cursor
advances; after the 512th byte the CRC16 trailer is queued big-endian, to return to IDLE. The store is unchanged. -/
def Obligations.ProduceStreamsTheStore : Prop :=
  ∀ s : State, s.phase = .readBlock → s.head < s.cfg.capacity →
    ∃ out t u, s.memRead s.head = some out ∧ produce s = .ok (out, t) ∧
      (s.blkCount.val ≠ 511 → t = u ∧ u.blkCount.val = s.blkCount.val + 1) ∧
      (s.blkCount.val = 511 → u.blkCount.val = 0 ∧ ResponseOnly u t ∧
        Queued u t [(fold16 s.crc16 out).extractLsb' 8 8, (fold16 s.crc16 out).extractLsb' 0 8] .idle) ∧
      u = { s with crc16 := fold16 s.crc16 out, head := s.head + 1, blkCount := u.blkCount } ∧
      ∀ a, t.memRead a = s.memRead a

/-- Produce in WRITE_CRC (40_byte_engine.md R111; D31): the placeholder 0x05, and no state change. -/
def Obligations.ProducePlaceholderWhileCrcArrives : Prop :=
  ∀ s : State, s.phase = .writeCrc → produce s = .ok (0x05, s)

/-- Produce in the command phases, WRITE_STBT and WRITE_LISTEN (40_byte_engine.md R112): 0xFF, and no state change. -/
def Obligations.ProduceIsFillerElsewhere : Prop :=
  ∀ s : State, s.phase ∈ [Phase.boot, .spi, .spiAcmd, .idle, .idleAcmd, .writeStbt, .writeListen] →
    produce s = .ok (0xFF, s)

/-- The MISO byte of an exchange does not depend on its MOSI byte (40_byte_engine.md R113). -/
def Obligations.MisoIndependentOfMosi : Prop :=
  ∀ (s t t' : State) (b b' : Byte), exec (.mosiByte b) s = .next t → exec (.mosiByte b') s = .next t' →
    t.miso = t'.miso

/-! ### Ports -/

/-- A MOSI byte while deselected changes nothing and raises no MISO event (43_adapter.md R182). -/
def Obligations.DeselectedByteIsIgnored : Prop :=
  ∀ (s : State) (b : Byte), s.csSel = false → exec (.mosiByte b) s = .next s

/-- Any number of bytes sent while deselected only pass by: frame, response, block and trailer stay where they were
(43_adapter.md R181, R182; 70_reset_and_hazards.md R243, D11). -/
def Obligations.DeselectionPausesTheTransaction : Prop :=
  ∀ (bs : List Byte) (s : State) (rest : List PortEvent), s.csSel = true →
    s.inputs = .cs 1 :: (bs.map PortEvent.mosi ++ .cs 0 :: rest) →
    runSteps (bs.length + 2) s = .next { s with inputs := rest }

/-- A chip-select event sets the logical level, inverted, and nothing else (43_adapter.md R181). -/
def Obligations.ChipSelectSetsOnlyItsFlag : Prop :=
  ∀ s : State, exec (.csEvent 0) s = .next { s with csSel := true } ∧
    exec (.csEvent 1) s = .next { s with csSel := false }

/-- The reset event (43_adapter.md R184, D32; the values of 70_reset_and_hazards.md R230, D19), in every phase, selected
or not. -/
def Obligations.ResetEventResetsTheProtocol : Prop :=
  ∀ s : State, ∃ t, exec .resetEvent s = .next t ∧ ProtocolReset t ∧ ResetFrame s t

/-- Reset is idempotent and total (70_reset_and_hazards.md R233): a second reset changes nothing, and after a reset every
frame but CMD0 is illegal. -/
def Obligations.ResetIsIdempotent : Prop :=
  ∀ s t : State, exec .resetEvent s = .next t →
    exec .resetEvent t = .next t ∧
    ∀ w : FrameWord, decodeFrame t.decodeCtx w =
      .ok (if frameIndex w = 0 then .cmd0 (frameFields w) else .illegalBoot (frameIndex w) (frameFields w))

/-- Every MOSI byte completes from a state the invariant allows, selected or not, unless it is the sixth byte of a frame
the instance refuses (43_adapter.md R187); while selected it emits exactly one MISO byte, while deselected none. -/
def Obligations.MosiByteCompletes : Prop :=
  ∀ (s : State) (b : Byte), Inv s → ¬(s.csSel = true ∧ AwaitsRefusedFrame s) →
    ∃ t, exec (.mosiByte b) s = .next t ∧
      (s.csSel = true → ∃ out, t.miso = s.miso ++ [out]) ∧ (s.csSel = false → t.miso = s.miso)

/-! ### The whole machine -/

/-- The invariant holds at reset (10_state.md R35). -/
def Obligations.InvAtReset : Prop := Inv State.reset

/-- Every step keeps the invariant (10_state.md R35). -/
def Obligations.InvKeptByStep : Prop := ∀ s t : State, Inv s → step s = .next t → Inv t

/-- The engine never faults, never refuses and never sticks (43_adapter.md R187): from every state the invariant allows,
in an instance that does not refuse multi-block commands, any number of steps answers a next state, and the invariant
holds there. -/
def Obligations.EngineNeverStops : Prop :=
  ∀ (k : Nat) (s : State), Inv s → s.cfg.multiBlockMode = .single → ∃ t, runSteps k s = .next t ∧ Inv t

/-- The machine as it is created (70_reset_and_hazards.md R232; values of D10 and D19): every register at its reset value,
chip-select at CS_INIT, every store byte in range at its value in INITIAL_IMAGE, nothing pending on the ports (the
model's own choice, logs 4 and 5). -/
def Obligations.CreationState : Prop :=
  ∀ c : Config, ProtocolReset (State.create c) ∧ (State.create c).csSel = c.csInit ∧ (State.create c).cfg = c ∧
    (∀ a, a < c.capacity → (State.create c).memRead a = some (unlisted c.initialImage a)) ∧
    (State.create c).inputs = [] ∧ (State.create c).miso = [] ∧ State.reset = State.create Config.params

/-- A store byte written is what a later read of its address gives, other addresses keep their byte, and an address
outside the store can be neither read nor written (20_memory.md R51, R53). On a store in canonical form. -/
def Obligations.StoreReadAfterWrite : Prop :=
  ∀ (s : State) (a : Nat) (v : Byte), Memory.wf s.cfg.initialImage s.store = true →
    (a < s.cfg.capacity → ∃ t, s.memWrite a v = some t ∧ t.memRead a = some v ∧
      (∀ b, b ≠ a → t.memRead b = s.memRead b) ∧ t = { s with store := t.store }) ∧
    (s.cfg.capacity ≤ a → s.memWrite a v = none ∧ s.memRead a = none)

/-- No command, no reset and no chip-select event touches the store (20_memory.md R51, R67): a step changes a store byte
only as a selected MOSI byte in WRITE_LISTEN, and then only the byte at the cursor. -/
def Obligations.OnlyDataBytesWriteTheStore : Prop :=
  ∀ s t : State, Inv s → step s = .next t → ∀ a, t.memRead a ≠ s.memRead a →
    a = s.head ∧ s.csSel = true ∧ s.phase = .writeListen ∧
      ∃ b rest, s.inputs = .mosi b :: rest ∧ t.memRead a = some b

/-- The configuration never changes (10_state.md R33, R24), and chip-select changes only by a chip-select event
(10_state.md R23). -/
def Obligations.ConfigAndChipSelectOwners : Prop :=
  ∀ s t : State, step s = .next t →
    t.cfg = s.cfg ∧ (t.csSel ≠ s.csSel → ∃ level rest, s.inputs = .cs level :: rest)

/-- Produce moves the phase only as 40_byte_engine.md R114 lists: at the last queued byte to `after_send_state`, at the
512th byte of a read block to CMD_RESPONSE. -/
def Obligations.ProducePhaseMoves : Prop :=
  ∀ (s t : State) (out : Byte), produce s = .ok (out, t) → t.phase ≠ s.phase →
    (s.phase = .cmdResponse ∧ s.respIdx.val + 1 = s.respLen.val ∧ t.phase = s.afterSend) ∨
    (s.phase = .readBlock ∧ s.blkCount.val = 511 ∧ t.phase = .cmdResponse)

/-- Accept moves the phase only as 40_byte_engine.md R114 lists: a frame's sixth byte to CMD_RESPONSE, the start-block
token to WRITE_LISTEN, the 512th data byte to WRITE_CRC, the second CRC byte to CMD_RESPONSE, a violation to BOOT. -/
def Obligations.AcceptPhaseMoves : Prop :=
  ∀ (s t : State) (b : Byte), accept b s = .next t → t.phase ≠ s.phase →
    (s.phase.isCommand = true ∧ s.cmdLen.val = 5 ∧ t.phase = .cmdResponse) ∨
    (s.phase = .writeStbt ∧ b = 0xFE ∧ t.phase = .writeListen) ∨
    (s.phase = .writeListen ∧ s.blkCount.val = 511 ∧ t.phase = .writeCrc) ∨
    (s.phase = .writeCrc ∧ s.wcrcIdx.val = 1 ∧ t.phase = .cmdResponse) ∨
    (s.phase.isTx = true ∧ b ≠ 0xFF ∧ t.phase = .boot)

/-! ### Runs -/

/-- The wait for the start-block token has no bound (70_reset_and_hazards.md R240): any number of bytes other than 0xFE
leaves the engine in WRITE_STBT, answering 0xFF to each. -/
def Obligations.TokenWaitHasNoBound : Prop :=
  ∀ (bs : List Byte) (s : State) (rest : List PortEvent), s.phase = .writeStbt → s.csSel = true →
    (∀ b ∈ bs, b ≠ 0xFE) → s.inputs = bs.map PortEvent.mosi ++ rest →
    runSteps bs.length s = .next { s with inputs := rest, miso := s.miso ++ List.replicate bs.length 0xFF }

/-- A queued response is sent whole, in order and without a gap, one byte an exchange, and the phase recorded before it
follows (70_reset_and_hazards.md R237; 60_exceptions.md R208, R209). -/
def Obligations.ResponseIsSentWhole : Prop :=
  ∀ (s : State) (rest : List PortEvent), Inv s → s.phase = .cmdResponse → s.csSel = true →
    s.inputs = (List.replicate (State.pending s).length (0xFF : Byte)).map PortEvent.mosi ++ rest →
    runSteps (State.pending s).length s =
      .next { s with
        phase := s.afterSend
        respLen := 0
        respIdx := 0
        inputs := rest
        miso := s.miso ++ State.pending s }

/-- Six selected bytes, the first not 0xFF, sent in a command phase with no frame in progress, run the instruction their
frame decodes to, answered by six 0xFF (30_encoding.md R72, 40_byte_engine.md R102, R112). -/
def Obligations.SixBytesRunTheirCommand : Prop :=
  ∀ (s : State) (v : Vector Byte 6) (rest : List PortEvent), s.phase.isCommand = true → s.cmdLen.val = 0 →
    s.csSel = true → v[0] ≠ 0xFF → s.inputs = v.toList.map PortEvent.mosi ++ rest →
    ∃ i : Instr, decodeFrame s.decodeCtx (frameOfBytes v) = .ok i ∧
      runSteps 6 s =
        match exec i { s with cmdBuf := v, cmdLen := 5, inputs := rest, miso := s.miso ++ List.replicate 6 0xFF } with
        | .next t => .next { t with cmdLen := 0 }
        | o => o

/-- A written block (40_byte_engine.md R104, 20_memory.md R52, 42_crc.md R163): 512 selected bytes in WRITE_LISTEN are
stored at the 512 addresses from the cursor and nowhere else, and WRITE_CRC follows. The CRC is folded over them from the
value `crc16` had, which is their Crc16 only if that was 0xFFFF, as the start token leaves it (R103). -/
def Obligations.WrittenBlockIsStored : Prop :=
  ∀ (s : State) (d : List Byte) (rest : List PortEvent), d.length = 512 → s.phase = .writeListen →
    s.blkCount.val = 0 → s.csSel = true → s.head + 512 ≤ s.cfg.capacity →
    Memory.wf s.cfg.initialImage s.store = true → s.inputs = d.map PortEvent.mosi ++ rest →
    ∃ t, runSteps 512 s = .next t ∧
      (∀ k, k < 512 → t.memRead (s.head + k) = d[k]?) ∧
      (∀ a, a < s.head ∨ s.head + 512 ≤ a → t.memRead a = s.memRead a) ∧
      t.crc16 = crc16Fold s.crc16 d ∧ t.head = s.head + 512 ∧ t.phase = .writeCrc ∧ t.blkCount.val = 0 ∧
      t.wcrcIdx.val = 0 ∧ t.wcrcOk = true ∧ t.miso = s.miso ++ List.replicate 512 0xFF ∧
      t = { s with
        store := t.store
        crc16 := t.crc16
        head := t.head
        phase := t.phase
        wcrcIdx := t.wcrcIdx
        wcrcOk := t.wcrcOk
        miso := t.miso
        inputs := rest }

/-- A read block (40_byte_engine.md R110, 42_crc.md R163): 512 selected fillers in READ_BLOCK are answered by the 512 store
bytes from the cursor, and then the fold of just those bytes from the value `crc16` had is queued, high byte first, to
return to IDLE whatever `multi` is (D14). It is their Crc16 only if `crc16` was 0xFFFF, as the read command leaves it
(41_commands.md R139). The store is unchanged. -/
def Obligations.ReadBlockStreamsTheStore : Prop :=
  ∀ (s : State) (d : List Byte) (rest : List PortEvent), d.length = 512 → s.phase = .readBlock →
    s.blkCount.val = 0 → s.csSel = true → (∀ k, k < 512 → s.memRead (s.head + k) = d[k]?) →
    s.inputs = (List.replicate 512 (0xFF : Byte)).map PortEvent.mosi ++ rest →
    ∃ t, runSteps 512 s = .next t ∧ t.miso = s.miso ++ d ∧ t.crc16 = crc16Fold s.crc16 d ∧ t.head = s.head + 512 ∧
      t.phase = .cmdResponse ∧ t.afterSend = .idle ∧ t.blkCount.val = 0 ∧
      State.pending t = [(crc16Fold s.crc16 d).extractLsb' 8 8, (crc16Fold s.crc16 d).extractLsb' 0 8] ∧
      t.store = s.store ∧ t.inputs = rest

/-- The round trip of 95_test_vectors.md 1.2, P-RT: from IDLE, selected and between frames, WRITE(a, d) and then READ(a)
in the notation of 30_encoding.md R84 are answered byte by byte as written here: the read returns the written payload
and its CRC16 (D27) high byte first, for every offset in range, aligned or not (D15). The 512 bytes stand in the store
and the engine is in IDLE again, since the phase reverts with the last byte of a response (D13). With READ_R1_PREFIX
false (D5) the read is one byte shorter and its last filler is idle. -/
def Obligations.WriteThenReadReturnsThePayload : Prop :=
  ∀ (s : State) (a : BitVec 32) (d : List Byte) (rest : List PortEvent), Inv s → s.phase = .idle → s.cmdLen.val = 0 →
    s.csSel = true → d.length = 512 → a.toNat + 512 ≤ s.cfg.capacity →
    s.inputs = writeEvents a d ++ readEvents a ++ rest →
    ∃ t, runSteps (writeEvents a d ++ readEvents a).length s = .next t ∧
      t.miso = s.miso ++ (List.replicate 6 0xFF ++ [0x00, 0xFF] ++ List.replicate 512 0xFF ++ [0x05, 0x05, 0x05]) ++
        (List.replicate 6 0xFF ++ (if s.cfg.readR1Prefix then [0x00, 0xFE] else [0xFE]) ++ d ++
          [(crc16Of d).extractLsb' 8 8, (crc16Of d).extractLsb' 0 8] ++
          (if s.cfg.readR1Prefix then [] else [0xFF])) ∧
      t.phase = .idle ∧ t.cmdLen.val = 0 ∧ t.inputs = rest ∧
      (∀ k, k < 512 → t.memRead (a.toNat + k) = d[k]?)

/-! ### CRC engines -/

/-- The table form and the bitwise form of the CRC16 fold agree (42_crc.md R160 to R162, general knowledge in the
spec, D27). -/
def Obligations.Fold16TableIsBitwise : Prop := ∀ (c : BitVec 16) (b : Byte), fold16 c b = fold16Bitwise c b

/-- The table form and the bitwise form of the CRC7 fold agree (42_crc.md R165 to R167, general knowledge in the
spec, D27). -/
def Obligations.Fold7TableIsBitwise : Prop := ∀ (r : BitVec 7) (b : Byte), fold7 r b = fold7Bitwise r b

/-- Corrupting any single payload byte changes the computed CRC16 (95_test_vectors.md 1.2, P-CRC; 42_crc.md R170). -/
def Obligations.CrcDetectsAChangedByte : Prop :=
  ∀ (pre post : List Byte) (x y : Byte), x ≠ y → crc16Of (pre ++ x :: post) ≠ crc16Of (pre ++ y :: post)
end

