-- ==== Sys2Proof/Laws/Decode.lean ====
section
/-! SUPPORT. The bits of a frame word, and that its fields and its bytes can be taken apart and put together again. -/

namespace Sys2Proof

/-- The bits of a frame put together from its fields. -/
theorem frameOf_getLsbD (idx : BitVec 6) (f : FrameFields) (j : Nat) :
    (frameOf idx f).getLsbD j =
      if j < 8 then f.crc.getLsbD j
      else if j < 40 then f.arg.getLsbD (j - 8)
      else if j < 46 then idx.getLsbD (j - 40)
      else f.framing.getLsbD (j - 46) := by
  have h : (f.framing ++ idx ++ f.arg ++ f.crc : BitVec (2 + 6 + 32 + 8)).getLsbD j = _ :=
    BitVec.getLsbD_append
  refine h.trans ?_
  by_cases h8 : j < 8
  · simp [h8]
  · rw [if_neg h8, if_neg h8, BitVec.getLsbD_append]
    by_cases h40 : j < 40
    · simp [h40, show j - 8 < 32 by omega]
    · rw [if_neg h40, if_neg (by omega), BitVec.getLsbD_append]
      by_cases h46 : j < 46
      · simp [h46, show j - 8 - 32 = j - 40 by omega]
        omega
      · simp [h46, show ¬ j - 8 - 32 < 6 by omega, show j - 8 - 32 - 6 = j - 46 by omega]

/-- The bits of a frame put together from its bytes. -/
theorem frameOfBytes_getLsbD (v : Vector Byte 6) (j : Nat) :
    (frameOfBytes v).getLsbD j =
      if j < 8 then v[5].getLsbD j
      else if j < 16 then v[4].getLsbD (j - 8)
      else if j < 24 then v[3].getLsbD (j - 16)
      else if j < 32 then v[2].getLsbD (j - 24)
      else if j < 40 then v[1].getLsbD (j - 32)
      else v[0].getLsbD (j - 40) := by
  have h : (v[0] ++ v[1] ++ v[2] ++ v[3] ++ v[4] ++ v[5] : BitVec (8 + 8 + 8 + 8 + 8 + 8)).getLsbD j = _ :=
    BitVec.getLsbD_append
  refine h.trans ?_
  by_cases h8 : j < 8
  · simp [h8]
  · rw [if_neg h8, if_neg h8, BitVec.getLsbD_append]
    by_cases h16 : j < 16
    · simp [h16, show j - 8 < 8 by omega]
    · rw [if_neg h16, if_neg (by omega), BitVec.getLsbD_append]
      by_cases h24 : j < 24
      · simp [h24, show j - 8 - 8 = j - 16 by omega]
        omega
      · rw [if_neg h24, if_neg (by omega), BitVec.getLsbD_append]
        by_cases h32 : j < 32
        · simp [h32, show j - 8 - 8 - 8 = j - 24 by omega]
          omega
        · rw [if_neg h32, if_neg (by omega), BitVec.getLsbD_append]
          by_cases h40 : j < 40
          · simp [h40, show j - 8 - 8 - 8 - 8 = j - 32 by omega]
            omega
          · simp [h40, show ¬ j - 8 - 8 - 8 - 8 < 8 by omega, show j - 8 - 8 - 8 - 8 - 8 = j - 40 by omega]

@[simp] theorem frameIndex_frameOf (idx : BitVec 6) (f : FrameFields) : frameIndex (frameOf idx f) = idx := by
  apply BitVec.eq_of_getLsbD_eq
  intro i hi
  rw [frameIndex, BitVec.getLsbD_extractLsb', frameOf_getLsbD]
  simp [hi, show ¬ 40 + i < 8 by omega, show ¬ 40 + i < 40 by omega, show 40 + i < 46 by omega]

@[simp] theorem frameFields_frameOf (idx : BitVec 6) (f : FrameFields) : frameFields (frameOf idx f) = f := by
  obtain ⟨framing, arg, crc⟩ := f
  simp only [frameFields, FrameFields.mk.injEq]
  refine ⟨?_, ?_, ?_⟩ <;> apply BitVec.eq_of_getLsbD_eq <;> intro i hi <;>
    rw [BitVec.getLsbD_extractLsb', frameOf_getLsbD]
  · simp [hi, show ¬ 46 + i < 8 by omega, show ¬ 46 + i < 40 by omega, show ¬ 46 + i < 46 by omega]
  · simp [hi, show ¬ 8 + i < 8 by omega, show 8 + i < 40 by omega]
  · simp [hi]

/-- A frame word is its fields put together. -/
theorem frameOf_frameFields (w : FrameWord) : frameOf (frameIndex w) (frameFields w) = w := by
  apply BitVec.eq_of_getLsbD_eq
  intro i hi
  rw [frameOf_getLsbD]
  simp only [frameFields, frameIndex, BitVec.getLsbD_extractLsb']
  split
  · next h => simp [h]
  · split
    · simp [show i - 8 < 32 by omega, show 8 + (i - 8) = i by omega]
    · split
      · simp [show i - 40 < 6 by omega, show 40 + (i - 40) = i by omega]
      · simp [show i - 46 < 2 by omega, show 46 + (i - 46) = i by omega]

/-- The bytes of six bytes put together are those bytes. -/
@[simp] theorem frameBytes_frameOfBytes (v : Vector Byte 6) : frameBytes (frameOfBytes v) = v := by
  have key : ∀ (k : Nat) (b : Byte), (∀ i, i < 8 → (frameOfBytes v).getLsbD (k + i) = b.getLsbD i) →
      (frameOfBytes v).extractLsb' k 8 = b := by
    intro k b h
    apply BitVec.eq_of_getLsbD_eq
    intro i hi
    rw [BitVec.getLsbD_extractLsb', h i hi]
    simp [hi]
  have h0 : (frameOfBytes v).extractLsb' 40 8 = v[0] := key 40 _ fun i hi => by
    rw [frameOfBytes_getLsbD]
    simp [show ¬ 40 + i < 8 by omega, show ¬ 40 + i < 16 by omega, show ¬ 40 + i < 24 by omega,
      show ¬ 40 + i < 32 by omega]
  have h1 : (frameOfBytes v).extractLsb' 32 8 = v[1] := key 32 _ fun i hi => by
    rw [frameOfBytes_getLsbD]
    simp [show ¬ 32 + i < 8 by omega, show ¬ 32 + i < 16 by omega, show ¬ 32 + i < 24 by omega,
      show 32 + i < 40 by omega]
  have h2 : (frameOfBytes v).extractLsb' 24 8 = v[2] := key 24 _ fun i hi => by
    rw [frameOfBytes_getLsbD]
    simp [show ¬ 24 + i < 8 by omega, show ¬ 24 + i < 16 by omega, show 24 + i < 32 by omega]
  have h3 : (frameOfBytes v).extractLsb' 16 8 = v[3] := key 16 _ fun i hi => by
    rw [frameOfBytes_getLsbD]
    simp [show ¬ 16 + i < 8 by omega, show 16 + i < 24 by omega]
  have h4 : (frameOfBytes v).extractLsb' 8 8 = v[4] := key 8 _ fun i hi => by
    rw [frameOfBytes_getLsbD]
    simp [show ¬ 8 + i < 8 by omega, show 8 + i < 16 by omega]
  have h5 : (frameOfBytes v).extractLsb' 0 8 = v[5] := key 0 _ fun i hi => by
    rw [frameOfBytes_getLsbD]
    simp [hi]
  simp only [frameBytes, h0, h1, h2, h3, h4, h5]
  ext i hi : 1
  obtain rfl | rfl | rfl | rfl | rfl | rfl : i = 0 ∨ i = 1 ∨ i = 2 ∨ i = 3 ∨ i = 4 ∨ i = 5 := by omega
  all_goals rfl

/-- Six bytes of a frame put together are the frame. -/
@[simp] theorem frameOfBytes_frameBytes (w : FrameWord) : frameOfBytes (frameBytes w) = w := by
  apply BitVec.eq_of_getLsbD_eq
  intro i hi
  rw [frameOfBytes_getLsbD]
  simp only [frameBytes, Vector.getElem_mk, List.getElem_toArray, List.getElem_cons_zero, List.getElem_cons_succ,
    BitVec.getLsbD_extractLsb']
  repeat' split
  · next h => simp [h]
  · simp [show i - 8 < 8 by omega, show 8 + (i - 8) = i by omega]
  · simp [show i - 16 < 8 by omega, show 16 + (i - 16) = i by omega]
  · simp [show i - 24 < 8 by omega, show 24 + (i - 24) = i by omega]
  · simp [show i - 32 < 8 by omega, show 32 + (i - 32) = i by omega]
  · simp [show i - 40 < 8 by omega, show 40 + (i - 40) = i by omega]

/-- The first byte of a frame is its framing bits and its index. -/
theorem frameBytes_first (idx : BitVec 6) (f : FrameFields) : (frameBytes (frameOf idx f))[0] = f.framing ++ idx := by
  show (frameOf idx f).extractLsb' 40 8 = _
  apply BitVec.eq_of_getLsbD_eq
  intro i hi
  rw [BitVec.getLsbD_extractLsb', frameOf_getLsbD, BitVec.getLsbD_append]
  by_cases h : i < 6
  · simp [hi, h, show ¬ 40 + i < 8 by omega, show 40 + i < 46 by omega]
  · simp [hi, h, show ¬ 40 + i < 8 by omega, show ¬ 40 + i < 46 by omega, show 40 + i - 46 = i - 6 by omega]

/-- A frame is sendable exactly if its first byte is not the filler (30_encoding.md R72). -/
theorem sendable_iff (idx : BitVec 6) (f : FrameFields) :
    sendable idx f = true ↔ (frameBytes (frameOf idx f))[0] ≠ fillerByte := by
  rw [frameBytes_first, sendable, fillerByte]
  have hsix : ∀ i : BitVec 6, ∀ p : BitVec 2, (p ++ i = (0xFF : Byte)) ↔ p.toNat * 64 + i.toNat = 255 := by
    intro i p
    rw [← BitVec.toNat_inj, BitVec.toNat_append, Nat.shiftLeft_eq,
      show p.toNat * 2 ^ 6 = 2 ^ 6 * p.toNat from Nat.mul_comm _ _, ← Nat.two_pow_add_eq_or_of_lt i.isLt]
    rw [show (0xFF : Byte).toNat = 255 from rfl]
    omega
  rw [ne_eq, hsix]
  simp only [Bool.not_eq_true', Bool.and_eq_false_iff, beq_eq_false_iff_ne, ne_eq, ← BitVec.toNat_inj,
    show (63 : BitVec 6).toNat = 63 from rfl, show (3 : BitVec 2).toNat = 3 from rfl]
  have hi := idx.isLt
  have hp := f.framing.isLt
  omega

end Sys2Proof
end

