-- ==== Sys2Proof/Laws/State.lean ====
section
/-! SUPPORT. One lemma for each field of the state and each named update of it, true by rfl: later proofs need not unfold
an update. -/

namespace Sys2Proof.Machine

/-! ### queue -/

@[simp] theorem queue_phase (r : Response) (next : Phase) (s : State) : (queue r next s).phase = .cmdResponse := rfl

@[simp] theorem queue_afterSend (r : Response) (next : Phase) (s : State) : (queue r next s).afterSend = next := rfl

@[simp] theorem queue_csSel (r : Response) (next : Phase) (s : State) : (queue r next s).csSel = s.csSel := rfl

@[simp] theorem queue_head (r : Response) (next : Phase) (s : State) : (queue r next s).head = s.head := rfl

@[simp] theorem queue_cmdBuf (r : Response) (next : Phase) (s : State) : (queue r next s).cmdBuf = s.cmdBuf := rfl

@[simp] theorem queue_cmdLen (r : Response) (next : Phase) (s : State) : (queue r next s).cmdLen = s.cmdLen := rfl

@[simp] theorem queue_respBuf (r : Response) (next : Phase) (s : State) : (queue r next s).respBuf = fillResponse s.respBuf r.bytes := rfl

@[simp] theorem queue_respLen (r : Response) (next : Phase) (s : State) : (queue r next s).respLen = ⟨r.bytes.length, r.bytes_length.2⟩ := rfl

@[simp] theorem queue_respIdx (r : Response) (next : Phase) (s : State) : (queue r next s).respIdx = 0 := rfl

@[simp] theorem queue_blkCount (r : Response) (next : Phase) (s : State) : (queue r next s).blkCount = s.blkCount := rfl

@[simp] theorem queue_crc16 (r : Response) (next : Phase) (s : State) : (queue r next s).crc16 = s.crc16 := rfl

@[simp] theorem queue_wcrcIdx (r : Response) (next : Phase) (s : State) : (queue r next s).wcrcIdx = s.wcrcIdx := rfl

@[simp] theorem queue_wcrcOk (r : Response) (next : Phase) (s : State) : (queue r next s).wcrcOk = s.wcrcOk := rfl

@[simp] theorem queue_multi (r : Response) (next : Phase) (s : State) : (queue r next s).multi = s.multi := rfl

@[simp] theorem queue_store (r : Response) (next : Phase) (s : State) : (queue r next s).store = s.store := rfl

@[simp] theorem queue_cfg (r : Response) (next : Phase) (s : State) : (queue r next s).cfg = s.cfg := rfl

@[simp] theorem queue_inputs (r : Response) (next : Phase) (s : State) : (queue r next s).inputs = s.inputs := rfl

@[simp] theorem queue_miso (r : Response) (next : Phase) (s : State) : (queue r next s).miso = s.miso := rfl

/-! ### endResponse -/

@[simp] theorem endResponse_phase (s : State) : (endResponse s).phase = s.afterSend := rfl

@[simp] theorem endResponse_afterSend (s : State) : (endResponse s).afterSend = s.afterSend := rfl

@[simp] theorem endResponse_csSel (s : State) : (endResponse s).csSel = s.csSel := rfl

@[simp] theorem endResponse_head (s : State) : (endResponse s).head = s.head := rfl

@[simp] theorem endResponse_cmdBuf (s : State) : (endResponse s).cmdBuf = s.cmdBuf := rfl

@[simp] theorem endResponse_cmdLen (s : State) : (endResponse s).cmdLen = s.cmdLen := rfl

@[simp] theorem endResponse_respBuf (s : State) : (endResponse s).respBuf = s.respBuf := rfl

@[simp] theorem endResponse_respLen (s : State) : (endResponse s).respLen = 0 := rfl

@[simp] theorem endResponse_respIdx (s : State) : (endResponse s).respIdx = 0 := rfl

@[simp] theorem endResponse_blkCount (s : State) : (endResponse s).blkCount = s.blkCount := rfl

@[simp] theorem endResponse_crc16 (s : State) : (endResponse s).crc16 = s.crc16 := rfl

@[simp] theorem endResponse_wcrcIdx (s : State) : (endResponse s).wcrcIdx = s.wcrcIdx := rfl

@[simp] theorem endResponse_wcrcOk (s : State) : (endResponse s).wcrcOk = s.wcrcOk := rfl

@[simp] theorem endResponse_multi (s : State) : (endResponse s).multi = s.multi := rfl

@[simp] theorem endResponse_store (s : State) : (endResponse s).store = s.store := rfl

@[simp] theorem endResponse_cfg (s : State) : (endResponse s).cfg = s.cfg := rfl

@[simp] theorem endResponse_inputs (s : State) : (endResponse s).inputs = s.inputs := rfl

@[simp] theorem endResponse_miso (s : State) : (endResponse s).miso = s.miso := rfl

/-! ### fullReset -/

@[simp] theorem fullReset_phase (s : State) : (fullReset s).phase = .boot := rfl

@[simp] theorem fullReset_afterSend (s : State) : (fullReset s).afterSend = .boot := rfl

@[simp] theorem fullReset_csSel (s : State) : (fullReset s).csSel = s.csSel := rfl

@[simp] theorem fullReset_head (s : State) : (fullReset s).head = 0 := rfl

@[simp] theorem fullReset_cmdBuf (s : State) : (fullReset s).cmdBuf = #v[0x00, 0x00, 0x00, 0x00, 0x00, 0x00] := rfl

@[simp] theorem fullReset_cmdLen (s : State) : (fullReset s).cmdLen = 0 := rfl

@[simp] theorem fullReset_respBuf (s : State) : (fullReset s).respBuf = #v[0x00, 0x00, 0x00, 0x00, 0x00] := rfl

@[simp] theorem fullReset_respLen (s : State) : (fullReset s).respLen = 0 := rfl

@[simp] theorem fullReset_respIdx (s : State) : (fullReset s).respIdx = 0 := rfl

@[simp] theorem fullReset_blkCount (s : State) : (fullReset s).blkCount = 0 := rfl

@[simp] theorem fullReset_crc16 (s : State) : (fullReset s).crc16 = crc16Init := rfl

@[simp] theorem fullReset_wcrcIdx (s : State) : (fullReset s).wcrcIdx = 0 := rfl

@[simp] theorem fullReset_wcrcOk (s : State) : (fullReset s).wcrcOk = true := rfl

@[simp] theorem fullReset_multi (s : State) : (fullReset s).multi = false := rfl

@[simp] theorem fullReset_store (s : State) : (fullReset s).store = s.store := rfl

@[simp] theorem fullReset_cfg (s : State) : (fullReset s).cfg = s.cfg := rfl

@[simp] theorem fullReset_inputs (s : State) : (fullReset s).inputs = s.inputs := rfl

@[simp] theorem fullReset_miso (s : State) : (fullReset s).miso = s.miso := rfl

/-! ### emitMiso -/

@[simp] theorem emitMiso_phase (v : Byte) (s : State) : (emitMiso v s).phase = s.phase := rfl

@[simp] theorem emitMiso_afterSend (v : Byte) (s : State) : (emitMiso v s).afterSend = s.afterSend := rfl

@[simp] theorem emitMiso_csSel (v : Byte) (s : State) : (emitMiso v s).csSel = s.csSel := rfl

@[simp] theorem emitMiso_head (v : Byte) (s : State) : (emitMiso v s).head = s.head := rfl

@[simp] theorem emitMiso_cmdBuf (v : Byte) (s : State) : (emitMiso v s).cmdBuf = s.cmdBuf := rfl

@[simp] theorem emitMiso_cmdLen (v : Byte) (s : State) : (emitMiso v s).cmdLen = s.cmdLen := rfl

@[simp] theorem emitMiso_respBuf (v : Byte) (s : State) : (emitMiso v s).respBuf = s.respBuf := rfl

@[simp] theorem emitMiso_respLen (v : Byte) (s : State) : (emitMiso v s).respLen = s.respLen := rfl

@[simp] theorem emitMiso_respIdx (v : Byte) (s : State) : (emitMiso v s).respIdx = s.respIdx := rfl

@[simp] theorem emitMiso_blkCount (v : Byte) (s : State) : (emitMiso v s).blkCount = s.blkCount := rfl

@[simp] theorem emitMiso_crc16 (v : Byte) (s : State) : (emitMiso v s).crc16 = s.crc16 := rfl

@[simp] theorem emitMiso_wcrcIdx (v : Byte) (s : State) : (emitMiso v s).wcrcIdx = s.wcrcIdx := rfl

@[simp] theorem emitMiso_wcrcOk (v : Byte) (s : State) : (emitMiso v s).wcrcOk = s.wcrcOk := rfl

@[simp] theorem emitMiso_multi (v : Byte) (s : State) : (emitMiso v s).multi = s.multi := rfl

@[simp] theorem emitMiso_store (v : Byte) (s : State) : (emitMiso v s).store = s.store := rfl

@[simp] theorem emitMiso_cfg (v : Byte) (s : State) : (emitMiso v s).cfg = s.cfg := rfl

@[simp] theorem emitMiso_inputs (v : Byte) (s : State) : (emitMiso v s).inputs = s.inputs := rfl

@[simp] theorem emitMiso_miso (v : Byte) (s : State) : (emitMiso v s).miso = s.miso ++ [v] := rfl

/-! ### Outcomes -/

@[simp] theorem andThen_next (s : State) (f : State → Host.Outcome State Fault Refusal) : andThen (.next s) f = f s := rfl

@[simp] theorem andThen_fault (r : Fault) (f : State → Host.Outcome State Fault Refusal) :
    andThen (.fault r) f = .fault r := rfl

@[simp] theorem andThen_refused (r : Refusal) (f : State → Host.Outcome State Fault Refusal) :
    andThen (.refused r) f = .refused r := rfl

theorem andThen_eq_next {o : Host.Outcome State Fault Refusal} {f : State → Host.Outcome State Fault Refusal} {t : State}
    (h : andThen o f = .next t) : ∃ s, o = .next s ∧ f s = .next t := by
  cases o with
  | next s => exact ⟨s, rfl, h⟩
  | fault r => exact nomatch h
  | refused r => exact nomatch h

theorem andThen_assoc (o : Host.Outcome State Fault Refusal) (f g : State → Host.Outcome State Fault Refusal) :
    andThen (andThen o f) g = andThen o (fun s => andThen (f s) g) := by
  cases o <;> rfl

end Sys2Proof.Machine
end

