-- ==== Sys2Proof/Laws/Memory.lean ====
section
/-! SUPPORT. The laws of the store: a read after a write, the canonical form kept by every write, one spec lemma each for
MemRead and MemWrite. -/

namespace Sys2Proof.Machine

/-! ### Lists of cells -/

theorem lookupCell_eq_none {m : List Host.Cell} {a : Nat} (h : ∀ c ∈ m, c.1 ≠ a) : lookupCell m a = none := by
  induction m with
  | nil => rfl
  | cons c m ih =>
    obtain ⟨b, w⟩ := c
    have hb : b ≠ a := h (b, w) (by simp)
    rw [lookupCell, if_neg (Ne.symm hb)]
    exact ih fun c hc => h c (by simp [hc])

/-- In a rising list above `lo` every address is above `lo`. -/
theorem rising_lt {m : Memory} {lo : Nat} (h : Memory.rising (some lo) m = true) : ∀ c ∈ m, lo < c.1 := by
  induction m generalizing lo with
  | nil => simp
  | cons c m ih =>
    obtain ⟨a, v⟩ := c
    simp only [Memory.rising, Bool.and_eq_true, decide_eq_true_eq] at h
    intro d hd
    rcases List.mem_cons.1 hd with rfl | hd
    · exact h.1
    · exact lt_trans h.1 (ih h.2 d hd)

theorem rising_none {m : Memory} {lo : Nat} (h : Memory.rising (some lo) m = true) : Memory.rising none m = true := by
  cases m with
  | nil => rfl
  | cons c m => simpa [Memory.rising] using (by simpa [Memory.rising] using h : lo < c.1 ∧ _).2

theorem rising_weaken {m : Memory} {lo lo' : Nat} (h : Memory.rising (some lo) m = true) (hl : lo' ≤ lo) :
    Memory.rising (some lo') m = true := by
  cases m with
  | nil => rfl
  | cons c m =>
    simp only [Memory.rising, Bool.and_eq_true, decide_eq_true_eq] at h ⊢
    exact ⟨lt_of_le_of_lt hl h.1, h.2⟩

/-! ### put -/

/-- What a read gives after a put, at the address and elsewhere. -/
theorem read_put (image : List Host.Cell) {m : Memory} {a : Nat} (v : Byte) {lo : Option Nat}
    (h : Memory.rising lo m = true) (x : Nat) :
    Memory.read image (Memory.put (unlisted image a) m a v) x = if x = a then v else Memory.read image m x := by
  induction m generalizing lo with
  | nil =>
    by_cases hv : v = unlisted image a <;> by_cases hx : x = a <;>
      simp [Memory.put, Memory.read, lookupCell, hv, hx]
  | cons c m ih =>
    obtain ⟨b, w⟩ := c
    have hm : Memory.rising (some b) m = true := by
      cases lo with
      | none => simpa [Memory.rising] using h
      | some lo => simp [Memory.rising] at h; exact h.2
    have above := rising_lt hm
    by_cases hab : a < b
    · have habsent : lookupCell ((b, w) :: m) a = none := by
        apply lookupCell_eq_none
        intro c hc
        rcases List.mem_cons.1 hc with rfl | hc
        · exact Nat.ne_of_gt hab
        · exact Nat.ne_of_gt (lt_trans hab (above c hc))
      by_cases hv : v = unlisted image a
      · by_cases hx : x = a
        · subst hx; simp [Memory.put, Memory.read, hab, hv, habsent]
        · simp [Memory.put, hab, hv, hx]
      · by_cases hx : x = a <;> simp [Memory.put, Memory.read, lookupCell, hab, hv, hx]
    · by_cases heq : a = b
      · subst heq
        have habsent : lookupCell m a = none :=
          lookupCell_eq_none fun c hc => Nat.ne_of_gt (above c hc)
        by_cases hv : v = unlisted image a <;> by_cases hx : x = a <;>
          simp [Memory.put, Memory.read, lookupCell, hv, hx, habsent]
      · have := ih hm
        by_cases hxb : x = b
        · have hxa : x ≠ a := fun e => heq (e.symm.trans hxb)
          subst hxb
          simp [Memory.put, Memory.read, lookupCell, hab, heq, hxa]
        · simpa [Memory.put, Memory.read, lookupCell, hab, heq, hxb] using this

/-- A put keeps the addresses rising, above any bound that its address is above. -/
theorem rising_put {base : Byte} {m : Memory} {a : Nat} {v : Byte} {lo : Option Nat}
    (h : Memory.rising lo m = true) (hlo : ∀ l, lo = some l → l < a) :
    Memory.rising lo (Memory.put base m a v) = true := by
  induction m generalizing lo with
  | nil =>
    by_cases hv : v = base
    · simp [Memory.put, hv, Memory.rising]
    · cases lo with
      | none => simp [Memory.put, hv, Memory.rising]
      | some l => simp [Memory.put, hv, Memory.rising, hlo l rfl]
  | cons c m ih =>
    obtain ⟨b, w⟩ := c
    have hm : Memory.rising (some b) m = true := by
      cases lo with
      | none => simpa [Memory.rising] using h
      | some lo => simp [Memory.rising] at h; exact h.2
    have hb : ∀ l, lo = some l → l < b := by
      rintro l rfl
      simp [Memory.rising] at h
      exact h.1
    have cons_of : ∀ (p : Nat) (u : Byte) (r : Memory), (∀ l, lo = some l → l < p) →
        Memory.rising (some p) r = true → Memory.rising lo ((p, u) :: r) = true := by
      intro p u r hp hr
      cases lo with
      | none => simpa [Memory.rising] using hr
      | some l => simp [Memory.rising, hp l rfl, hr]
    by_cases hab : a < b
    · by_cases hv : v = base
      · simpa [Memory.put, hab, hv] using h
      · have : Memory.rising (some a) ((b, w) :: m) = true := by simp [Memory.rising, hab, hm]
        simpa [Memory.put, hab, hv] using cons_of a v _ hlo this
    · by_cases heq : a = b
      · subst heq
        by_cases hv : v = base
        · have hlow : Memory.rising lo m = true := by
            cases lo with
            | none => exact rising_none hm
            | some l => exact rising_weaken hm (le_of_lt (hlo l rfl))
          simpa [Memory.put, hv] using hlow
        · simpa [Memory.put, hv] using cons_of a v m hlo hm
      · have hba : b < a := by omega
        have := ih (lo := some b) hm (by rintro l ⟨⟩; exact hba)
        simpa [Memory.put, hab, heq] using cons_of b w _ hb this

/-- Every cell of a put is an old cell or the new one, which differs from `base`. -/
theorem mem_put {base : Byte} {m : Memory} {a : Nat} {v : Byte} {c : Host.Cell}
    (hc : c ∈ Memory.put base m a v) : c ∈ m ∨ c = (a, v) ∧ v ≠ base := by
  induction m with
  | nil =>
    by_cases hv : v = base
    · simp [Memory.put, hv] at hc
    · simp [Memory.put, hv] at hc; exact .inr ⟨hc, hv⟩
  | cons d m ih =>
    obtain ⟨b, w⟩ := d
    by_cases hab : a < b
    · by_cases hv : v = base
      · simp [Memory.put, hab, hv] at hc; exact .inl (by simpa using hc)
      · simp [Memory.put, hab, hv] at hc
        rcases hc with rfl | hc
        · exact .inr ⟨rfl, hv⟩
        · exact .inl (by simpa using hc)
    · by_cases heq : a = b
      · by_cases hv : v = base
        · simp [Memory.put, hv, heq] at hc; exact .inl (by simp [hc])
        · simp [Memory.put, hv, heq] at hc
          rcases hc with rfl | hc
          · exact .inr ⟨by simp [heq], hv⟩
          · exact .inl (by simp [hc])
      · simp [Memory.put, hab, heq] at hc
        rcases hc with rfl | hc
        · exact .inl (by simp)
        · rcases ih hc with h | h
          · exact .inl (by simp [h])
          · exact .inr h

/-- The canonical form of the empty list, which the store is at creation. -/
theorem wf_nil (image : List Host.Cell) : Memory.wf image [] = true := rfl

/-- A write keeps the canonical form. -/
theorem wf_write {image : List Host.Cell} {m : Memory} (a : Nat) (v : Byte) (h : Memory.wf image m = true) :
    Memory.wf image (Memory.write image m a v) = true := by
  simp only [Memory.wf, Bool.and_eq_true, List.all_eq_true, decide_eq_true_eq] at h ⊢
  refine ⟨rising_put h.1 (by simp), fun c hc => ?_⟩
  rcases mem_put hc with hc | ⟨rfl, hv⟩
  · exact h.2 c hc
  · exact hv

/-- A read after a write, on a store in canonical form. -/
theorem read_write {image : List Host.Cell} {m : Memory} (a : Nat) (v : Byte) (h : Memory.wf image m = true) (x : Nat) :
    Memory.read image (Memory.write image m a v) x = if x = a then v else Memory.read image m x := by
  simp only [Memory.wf, Bool.and_eq_true] at h
  exact read_put image v h.1 x

/-! ### MemRead and MemWrite -/

/-- A read depends on the configuration and the store alone. -/
theorem memRead_congr {s t : State} (hc : t.cfg = s.cfg) (hs : t.store = s.store) (a : Nat) :
    t.memRead a = s.memRead a := by
  simp [State.memRead, hc, hs]

/-- A read gives a byte exactly inside the store. -/
theorem memRead_eq_some {s : State} {a : Nat} {v : Byte} :
    s.memRead a = some v ↔ a < s.cfg.capacity ∧ Memory.read s.cfg.initialImage s.store a = v := by
  simp only [State.memRead]
  split <;> simp_all

theorem memRead_of_lt {s : State} {a : Nat} (h : a < s.cfg.capacity) :
    s.memRead a = some (Memory.read s.cfg.initialImage s.store a) := if_pos h

theorem memRead_of_le {s : State} {a : Nat} (h : s.cfg.capacity ≤ a) : s.memRead a = none := if_neg (Nat.not_lt.2 h)

theorem memWrite_of_lt {s : State} {a : Nat} (v : Byte) (h : a < s.cfg.capacity) :
    s.memWrite a v = some { s with store := Memory.write s.cfg.initialImage s.store a v } := if_pos h

theorem memWrite_of_le {s : State} {a : Nat} (v : Byte) (h : s.cfg.capacity ≤ a) : s.memWrite a v = none :=
  if_neg (Nat.not_lt.2 h)

/-- All a write does: it is inside the store, changes only the store, and keeps its canonical form and bounds. -/
theorem memWrite_spec {s t : State} {a : Nat} {v : Byte} (h : s.memWrite a v = some t) :
    a < s.cfg.capacity ∧ t = { s with store := Memory.write s.cfg.initialImage s.store a v } := by
  simp only [State.memWrite] at h
  split at h
  · next hlt => exact ⟨hlt, (Option.some.inj h).symm⟩
  · exact nomatch h

/-- A write keeps every listed address inside the store. -/
theorem write_lt {image : List Host.Cell} {m : Memory} {a cap : Nat} {v : Byte} (h : ∀ c ∈ m, c.1 < cap)
    (ha : a < cap) : ∀ c ∈ Memory.write image m a v, c.1 < cap := by
  intro c hc
  rcases mem_put hc with hc | ⟨rfl, -⟩
  · exact h c hc
  · exact ha

end Sys2Proof.Machine
end

