-- ==== Sys2Proof/Laws/Ops.lean ====
section
/-! SUPPORT. One spec lemma for each shared operation: all it can do, said once. -/

namespace Sys2Proof.Machine

open Sys2Proof

/-! ### Queue and what is built on it -/

/-- The elements of `resp_buf` after a queue: the response's byte where it has one, the old byte elsewhere. -/
theorem fillResponse_get (buf : Vector Byte 5) (bs : List Byte) (i : Fin 5) :
    (fillResponse buf bs)[i] = bs.getD i.val buf[i] := by
  revert i
  simp [Fin.forall_fin_succ, fillResponse]

theorem pending_queue (r : Response) (next : Phase) (s : State) : State.pending (queue r next s) = r.bytes := by
  have h := r.bytes_length
  simp only [State.pending, queue_respBuf, queue_respLen, queue_respIdx, fillResponse]
  generalize r.bytes = bs at h ⊢
  match bs, h with
  | [_], _ | [_, _], _ | [_, _, _], _ | [_, _, _, _], _ | [_, _, _, _, _], _ => rfl

/-- Queue queues: the response registers, the phase to return to and the phase are as the spec says. -/
theorem queue_queued (r : Response) (next : Phase) (s : State) : Queued s (queue r next s) r.bytes next where
  phase := rfl
  afterSend := rfl
  respIdx := rfl
  respLen := rfl
  pending := pending_queue r next s
  kept i hi := (fillResponse_get _ _ i).trans (by rw [List.getD_eq_default _ _ hi])

/-- Queue touches nothing else. -/
theorem queue_responseOnly (r : Response) (next : Phase) (s : State) : ResponseOnly s (queue r next s) where
  rest := rfl
  memory _ := rfl

/-- FullReset gives every protocol register its reset value. -/
theorem fullReset_protocolReset (s : State) : ProtocolReset (fullReset s) := by
  constructor <;> rfl

/-- FullReset leaves chip-select, configuration, store and ports alone. -/
theorem fullReset_frame (s : State) : ResetFrame s (fullReset s) := by
  constructor <;> first | rfl | exact fun _ => rfl

theorem startRead_inRange {s : State} {arg : BitVec 32} (multi : Bool) (h : inRange s.cfg arg = true) :
    startRead arg multi s = queue (.readPreamble s.cfg.readR1Prefix) .readBlock
      { s with head := arg.toNat, multi := multi, crc16 := crc16Init, blkCount := 0 } := if_pos h

theorem startRead_outOfRange {s : State} {arg : BitVec 32} (multi : Bool) (h : inRange s.cfg arg = false) :
    startRead arg multi s = addressError s := if_neg (by simp [h])

theorem startWrite_inRange {s : State} {arg : BitVec 32} (multi : Bool) (h : inRange s.cfg arg = true) :
    startWrite arg multi s = queue .r1Ready .writeStbt { s with head := arg.toNat, multi := multi } := if_pos h

theorem startWrite_outOfRange {s : State} {arg : BitVec 32} (multi : Bool) (h : inRange s.cfg arg = false) :
    startWrite arg multi s = addressError s := if_neg (by simp [h])

/-! ### Produce -/

/-- All Produce does in CMD_RESPONSE. -/
theorem produceResponse_cases {s t : State} {out : Byte} (h : produceResponse s = .ok (out, t)) :
    s.respIdx.val < s.respLen.val ∧ out = s.respBuf[s.respIdx] ∧
      (s.respIdx.val + 1 = s.respLen.val ∧ t = endResponse s ∨
        ∃ n : Fin 5, n.val = s.respIdx.val + 1 ∧ s.respIdx.val + 1 < s.respLen.val ∧ t = { s with respIdx := n }) := by
  unfold produceResponse at h
  split at h
  · next hlt =>
    split at h
    · next hlast => cases h; exact ⟨hlt, rfl, .inl ⟨hlast, rfl⟩⟩
    · next hlast => cases h; exact ⟨hlt, rfl, .inr ⟨⟨s.respIdx.val + 1, by omega⟩, rfl, by omega, rfl⟩⟩
  · exact nomatch h

/-- All Produce does in READ_BLOCK. -/
theorem produceBlockByte_cases {s t : State} {out : Byte} (h : produceBlockByte s = .ok (out, t)) :
    s.memRead s.head = some out ∧
      (s.blkCount.val = 511 ∧ t = queue (.crcTrailer (fold16 s.crc16 out)) .idle
          { s with crc16 := fold16 s.crc16 out, head := s.head + 1, blkCount := 0 } ∨
        ∃ n : Fin 512, n.val = s.blkCount.val + 1 ∧
          t = { s with crc16 := fold16 s.crc16 out, head := s.head + 1, blkCount := n }) := by
  unfold produceBlockByte at h
  split at h
  · exact nomatch h
  · next v hv =>
    split at h
    · next hlast => cases h; exact ⟨hv, .inl ⟨hlast, rfl⟩⟩
    · next hlast => cases h; exact ⟨hv, .inr ⟨⟨s.blkCount.val + 1, by omega⟩, rfl, rfl⟩⟩

/-- Produce in READ_BLOCK before the 512th byte. -/
theorem produceBlockByte_more {s : State} {v : Byte} (hr : s.memRead s.head = some v) (n : Fin 512)
    (hn : n.val = s.blkCount.val + 1) :
    produceBlockByte s = .ok (v, { s with crc16 := fold16 s.crc16 v, head := s.head + 1, blkCount := n }) := by
  have hne : ¬ s.blkCount.val = 511 := by have := n.isLt; omega
  have hn' : (⟨s.blkCount.val + 1, by omega⟩ : Fin 512) = n := Fin.ext hn.symm
  simp only [produceBlockByte, hr, dif_neg hne, hn']

/-- Produce in READ_BLOCK at the 512th byte. -/
theorem produceBlockByte_last {s : State} {v : Byte} (hr : s.memRead s.head = some v) (h : s.blkCount.val = 511) :
    produceBlockByte s = .ok (v, queue (.crcTrailer (fold16 s.crc16 v)) .idle
      { s with crc16 := fold16 s.crc16 v, head := s.head + 1, blkCount := 0 }) := by
  simp only [produceBlockByte, hr, dif_pos h]

/-- All Produce does, in every phase. -/
theorem produce_cases {s t : State} {out : Byte} (h : produce s = .ok (out, t)) :
    (s.phase = .cmdResponse ∧ produceResponse s = .ok (out, t)) ∨
    (s.phase = .readBlock ∧ produceBlockByte s = .ok (out, t)) ∨
    (s.phase = .writeCrc ∧ out = dataAccepted ∧ t = s) ∨
    (s.phase ≠ .cmdResponse ∧ s.phase ≠ .readBlock ∧ s.phase ≠ .writeCrc ∧ out = fillerByte ∧ t = s) := by
  unfold produce at h
  cases hp : s.phase <;> simp only [hp] at h
  case cmdResponse => exact .inl ⟨rfl, h⟩
  case readBlock => exact .inr (.inl ⟨rfl, h⟩)
  case writeCrc => cases h; exact .inr (.inr (.inl ⟨rfl, rfl, rfl⟩))
  all_goals cases h; exact .inr (.inr (.inr ⟨by decide, by decide, by decide, rfl, rfl⟩))

/-- Produce leaves chip-select, configuration, store, inputs, MISO, frame registers and write-CRC registers alone. -/
theorem produce_frame {s t : State} {out : Byte} (h : produce s = .ok (out, t)) :
    t = { s with
      phase := t.phase
      afterSend := t.afterSend
      head := t.head
      respBuf := t.respBuf
      respLen := t.respLen
      respIdx := t.respIdx
      blkCount := t.blkCount
      crc16 := t.crc16 } := by
  rcases produce_cases h with ⟨-, h⟩ | ⟨-, h⟩ | ⟨-, -, rfl⟩ | ⟨-, -, -, -, rfl⟩
  · obtain ⟨-, -, ⟨-, rfl⟩ | ⟨n, -, -, rfl⟩⟩ := produceResponse_cases h <;> rfl
  · obtain ⟨-, ⟨-, rfl⟩ | ⟨n, -, rfl⟩⟩ := produceBlockByte_cases h <;> rfl
  · rfl
  · rfl

/-! ### Frame bytes and data bytes -/

theorem execFrameByte_filler {s : State} {b : Byte} (h0 : s.cmdLen = 0) (hb : b = fillerByte) :
    execFrameByte b s = .next s := if_pos ⟨h0, hb⟩

theorem execFrameByte_capture {s : State} {b : Byte} (h : ¬(s.cmdLen = 0 ∧ b = fillerByte)) (n : Fin 6)
    (hn : n.val = s.cmdLen.val + 1) :
    execFrameByte b s = .next { s with cmdBuf := s.cmdBuf.set s.cmdLen b, cmdLen := n } := by
  have hne : ¬ s.cmdLen.val = 5 := by have := n.isLt; omega
  have hn' : (⟨s.cmdLen.val + 1, by omega⟩ : Fin 6) = n := Fin.ext hn.symm
  rw [execFrameByte, if_neg h, dif_neg hne, hn']

theorem execFrameByte_sixth {s : State} (b : Byte) (h5 : s.cmdLen.val = 5) :
    execFrameByte b s =
      andThen (dispatchFrame { s with cmdBuf := s.cmdBuf.set 5 b }) (fun t => .next { t with cmdLen := 0 }) := by
  have h0 : ¬(s.cmdLen = 0 ∧ b = fillerByte) := by
    rintro ⟨h0, -⟩
    simp [h0] at h5
  have hset : s.cmdBuf.set s.cmdLen b = s.cmdBuf.set 5 b := by simp [h5]
  rw [execFrameByte, if_neg h0, dif_pos h5, hset]

/-- All a data byte does when it is stored. -/
theorem execWriteDataByte_cases {s t : State} {b : Byte} (h : execWriteDataByte b s = .next t) :
    s.head < s.cfg.capacity ∧
      (s.blkCount.val = 511 ∧ t = { s with
          store := Memory.write s.cfg.initialImage s.store s.head b
          crc16 := fold16 s.crc16 b
          head := s.head + 1
          blkCount := 0
          phase := .writeCrc
          wcrcIdx := 0
          wcrcOk := true } ∨
        ∃ n : Fin 512, n.val = s.blkCount.val + 1 ∧ t = { s with
          store := Memory.write s.cfg.initialImage s.store s.head b
          crc16 := fold16 s.crc16 b
          head := s.head + 1
          blkCount := n }) := by
  unfold execWriteDataByte at h
  split at h
  · exact nomatch h
  · next u hu =>
    obtain ⟨hlt, rfl⟩ := memWrite_spec hu
    split at h
    · next hlast => cases h; exact ⟨hlt, .inl ⟨hlast, rfl⟩⟩
    · next hlast => cases h; exact ⟨hlt, .inr ⟨⟨s.blkCount.val + 1, by omega⟩, rfl, rfl⟩⟩

/-- A data byte before the 512th. -/
theorem execWriteDataByte_more {s : State} (b : Byte) (hlt : s.head < s.cfg.capacity) (n : Fin 512)
    (hn : n.val = s.blkCount.val + 1) :
    execWriteDataByte b s = .next { s with
      store := Memory.write s.cfg.initialImage s.store s.head b
      crc16 := fold16 s.crc16 b
      head := s.head + 1
      blkCount := n } := by
  have hne : ¬ s.blkCount.val = 511 := by have := n.isLt; omega
  have hn' : (⟨s.blkCount.val + 1, by omega⟩ : Fin 512) = n := Fin.ext hn.symm
  simp only [execWriteDataByte, memWrite_of_lt b hlt, dif_neg hne, hn']

/-- The 512th data byte. -/
theorem execWriteDataByte_last {s : State} (b : Byte) (hlt : s.head < s.cfg.capacity) (h : s.blkCount.val = 511) :
    execWriteDataByte b s = .next { s with
      store := Memory.write s.cfg.initialImage s.store s.head b
      crc16 := fold16 s.crc16 b
      head := s.head + 1
      blkCount := 0
      phase := .writeCrc
      wcrcIdx := 0
      wcrcOk := true } := by
  simp only [execWriteDataByte, memWrite_of_lt b hlt, dif_pos h]

/-! ### The nested rows are exec's -/

/-- Running a decoded command is exec of it. -/
theorem runCommand_eq_exec {i : Instr} (h : i.format = .commandFrame48) (s : State) : runCommand i s = exec i s := by
  cases i <;> first | rfl | exact nomatch h

/-- Running a decoded byte is exec of it. -/
theorem runByte_eq_exec {i : Instr} (h : i.format = .mosiByte8) (s : State) : runByte i s = exec i s := by
  cases i <;> first | rfl | exact nomatch h

/-- The byte decoder gives byte rows only. -/
theorem decodeByte_format (c : DecodeCtx) (b : Byte) : (decodeByte c b).format = .mosiByte8 := by
  unfold decodeByte
  cases c.phase <;> simp only [] <;> (repeat' split) <;> rfl

theorem decodeIdle_format (idx : BitVec 6) (f : FrameFields) : (decodeIdle idx f).format = .commandFrame48 := by
  unfold decodeIdle
  repeat' split
  all_goals rfl

/-- The command decoder gives command rows only. -/
theorem decodeFrame_format {c : DecodeCtx} {w : FrameWord} {i : Instr} (h : decodeFrame c w = .ok i) :
    i.format = .commandFrame48 := by
  unfold decodeFrame at h
  cases hp : c.phase <;> simp only [hp] at h <;> cases h <;> (repeat' split) <;>
    first | rfl | exact decodeIdle_format _ _

/-- In a command phase every frame decodes (30_encoding.md R81). -/
theorem decodeFrame_total {c : DecodeCtx} (w : FrameWord) (h : c.phase.isCommand = true) :
    ∃ i, decodeFrame c w = .ok i := by
  unfold decodeFrame
  cases hp : c.phase <;> simp only [hp, Phase.isCommand] at h ⊢ <;> first | exact ⟨_, rfl⟩ | exact nomatch h

/-- Accept is exec of the byte's row. -/
theorem accept_eq_exec (b : Byte) (s : State) : accept b s = exec (decodeByte s.decodeCtx b) s :=
  runByte_eq_exec (decodeByte_format _ _) s

/-- Dispatch is exec of the frame's row. -/
theorem dispatchFrame_eq_exec {s : State} {i : Instr} (h : decodeFrame s.decodeCtx s.frameWord = .ok i) :
    dispatchFrame s = exec i s := by
  rw [dispatchFrame, h]
  exact runCommand_eq_exec (decodeFrame_format h) s

end Sys2Proof.Machine
end

