-- ==== Sys2Proof/Laws/PerInstr.lean ====
section
/-! SUPPORT. Statements per instruction: the unit an instruction encodes to has the format of its row in the opcode
table. -/

namespace Sys2Proof.Laws.EncodeFormat

/-- The encoder gives the unit the row's format names. -/
def Statement (i : Instr) : Prop := (encode i).format = i.format

theorem cmd0 (f : FrameFields) : Statement (.cmd0 f) := rfl

theorem illegalBoot (idx : BitVec 6) (f : FrameFields) : Statement (.illegalBoot idx f) := rfl

theorem cmd55 (f : FrameFields) : Statement (.cmd55 f) := rfl

theorem illegalSpi (idx : BitVec 6) (f : FrameFields) : Statement (.illegalSpi idx f) := rfl

theorem acmd41 (f : FrameFields) : Statement (.acmd41 f) := rfl

theorem illegalSpiAcmd (idx : BitVec 6) (f : FrameFields) : Statement (.illegalSpiAcmd idx f) := rfl

theorem illegalIdleAcmd (idx : BitVec 6) (f : FrameFields) : Statement (.illegalIdleAcmd idx f) := rfl

theorem cmd17 (f : FrameFields) : Statement (.cmd17 f) := rfl

theorem cmd18 (f : FrameFields) : Statement (.cmd18 f) := rfl

theorem cmd24 (f : FrameFields) : Statement (.cmd24 f) := rfl

theorem cmd25 (f : FrameFields) : Statement (.cmd25 f) := rfl

theorem cmd13 (f : FrameFields) : Statement (.cmd13 f) := rfl

theorem cmd55Idle (f : FrameFields) : Statement (.cmd55Idle f) := rfl

theorem cmd58 (f : FrameFields) : Statement (.cmd58 f) := rfl

theorem illegalIdle (idx : BitVec 6) (f : FrameFields) : Statement (.illegalIdle idx f) := rfl

theorem frameByte (b : Byte) : Statement (.frameByte b) := rfl

theorem startBlockToken : Statement .startBlockToken := rfl

theorem discardedByte (b : Byte) : Statement (.discardedByte b) := rfl

theorem writeDataByte (b : Byte) : Statement (.writeDataByte b) := rfl

theorem writeCrcByte0 (b : Byte) : Statement (.writeCrcByte0 b) := rfl

theorem writeCrcByte1 (b : Byte) : Statement (.writeCrcByte1 b) := rfl

theorem txFiller : Statement .txFiller := rfl

theorem txViolation (b : Byte) : Statement (.txViolation b) := rfl

theorem csEvent (level : BitVec 1) : Statement (.csEvent level) := rfl

theorem mosiByte (b : Byte) : Statement (.mosiByte b) := rfl

theorem resetEvent : Statement .resetEvent := rfl

end Sys2Proof.Laws.EncodeFormat
end

