-- ==== Sys2Proof/Laws/Run.lean ====
section
/-! SUPPORT. Steps and runs: what a step is for each head of the inputs, and how runs compose. -/

namespace Sys2Proof.Machine

open Sys2Proof

theorem step_cons {s : State} {e : PortEvent} {rest : List PortEvent} (h : s.inputs = e :: rest) :
    step s = exec (decodeEvent e) { s with inputs := rest } := by
  rw [step, h]

theorem step_nil {s : State} (h : s.inputs = []) : step s = .next s := by
  rw [step, h]

/-- A run of `j + k` steps is a run of `j` and then a run of `k`. -/
theorem runSteps_add (j k : Nat) (s : State) : runSteps (j + k) s = andThen (runSteps j s) (runSteps k) := by
  induction j generalizing s with
  | zero => simp [runSteps]
  | succ j ih =>
    rw [Nat.succ_add, runSteps, runSteps, andThen_assoc]
    congr 1
    funext t
    exact ih t

/-- A run of the host's machine is a run here. -/
theorem core_run_eq_runSteps (k : Nat) (s : State) : Host.Core.run core k s = runSteps k s := by
  induction k generalizing s with
  | zero => rfl
  | succ k ih =>
    have hrun : Host.Core.run core (k + 1) s = andThen (step s) (Host.Core.run core k) := by
      refine (Host.Core.run.eq_2 core s k).trans ?_
      generalize hs : core.step s = o
      have hs' : step s = o := hs
      rw [hs']
      cases o <;> rfl
    rw [hrun, runSteps]
    congr 1
    funext t
    exact ih t

/-- A MOSI byte while selected, in terms of what Produce gives. -/
theorem execMosiByte_selected {s t : State} {b out : Byte} (hcs : s.csSel = true) (hp : produce s = .ok (out, t)) :
    execMosiByte b s = accept b (emitMiso out t) := by
  rw [execMosiByte, if_pos hcs, hp]

theorem execMosiByte_deselected {s : State} (b : Byte) (hcs : s.csSel = false) : execMosiByte b s = .next s :=
  if_neg (by simp [hcs])

/-- Produce in the phases that only answer 0xFF. -/
theorem produce_filler {s : State} (h1 : s.phase ≠ .cmdResponse) (h2 : s.phase ≠ .readBlock) (h3 : s.phase ≠ .writeCrc) :
    produce s = .ok (fillerByte, s) := by
  unfold produce
  cases hp : s.phase <;> simp_all

end Sys2Proof.Machine
end

