-- ==== Sys2Proof/Tests/Slice0.lean ====
section
/-! SUPPORT. Tests: the checks of WellFormed, the decoding of every row by a word written from the opcode table, single
steps whose expected results are the vectors of 95_test_vectors.md (named V<n>) or the tables of the spec, and for every
statement with hypotheses a witness that meets them. -/

namespace Sys2Proof.Tests.Slice0

open Sys2Proof Sys2Proof.Machine

/-! ### The test instance (95_test_vectors.md, conventions) -/

/-- The default parameters of the spec's vectors. -/
def cfg : Config where
  capacity := 1048576
  crcEnforce := true
  ocrValue := 0x00FF8000
  readR1Prefix := true
  illegalR1 := 0x04
  cmd0InSpiAcmd := .reset
  multiBlockMode := .single
  csInit := false
  initialImage := []

/-- A selected engine in a phase, everything else as created. -/
def ready (p : Phase) : State := { State.create cfg with phase := p, csSel := true }

/-- The decoder's context in a phase, for the first write-CRC byte. -/
def ctx (p : Phase) : DecodeCtx := ⟨p, 0, .reset⟩

/-- Something of the next state, none after a fault or a refusal. -/
def got {α : Type} (o : Host.Outcome State Fault Refusal) (f : State → α) : Option α :=
  match o with
  | .next t => some (f t)
  | .fault _ => none
  | .refused _ => none

/-- The phase, the phase to return to and the bytes queued. -/
def response (t : State) : Phase × Phase × List Byte := (t.phase, t.afterSend, State.pending t)

/-- A frame's fields as an SD host sends them: framing bits 01. -/
def fields (arg : BitVec 32) (crc : Byte) : FrameFields := ⟨1, arg, crc⟩

/-! ### WellFormed refuses -/

theorem test_wf_illegalBoot_not_zero : (Instr.illegalBoot 0 (fields 0 0)).wellFormed .reset = false := by decide

theorem test_wf_illegalBoot_sendable : (Instr.illegalBoot 63 ⟨3, 0, 0⟩).wellFormed .reset = false := by decide

theorem test_wf_illegalSpi_not_zero : (Instr.illegalSpi 0 (fields 0 0)).wellFormed .reset = false := by decide

theorem test_wf_illegalSpi_not_55 : (Instr.illegalSpi 55 (fields 0 0)).wellFormed .reset = false := by decide

theorem test_wf_illegalSpi_sendable : (Instr.illegalSpi 63 ⟨3, 0, 0⟩).wellFormed .reset = false := by decide

theorem test_wf_illegalSpiAcmd_not_41 : (Instr.illegalSpiAcmd 41 (fields 0 0)).wellFormed .illegal = false := by decide

theorem test_wf_illegalSpiAcmd_not_zero_if_reset :
    (Instr.illegalSpiAcmd 0 (fields 0 0)).wellFormed .reset = false ∧
      (Instr.illegalSpiAcmd 0 (fields 0 0)).wellFormed .illegal = true := by decide

theorem test_wf_illegalSpiAcmd_sendable : (Instr.illegalSpiAcmd 63 ⟨3, 0, 0⟩).wellFormed .reset = false := by decide

theorem test_wf_illegalIdleAcmd_not_zero : (Instr.illegalIdleAcmd 0 (fields 0 0)).wellFormed .reset = false := by decide

theorem test_wf_illegalIdleAcmd_sendable : (Instr.illegalIdleAcmd 63 ⟨3, 0, 0⟩).wellFormed .reset = false := by decide

theorem test_wf_illegalIdle_not_legal :
    ∀ idx ∈ ([0, 13, 17, 18, 24, 25, 55, 58] : List (BitVec 6)),
      (Instr.illegalIdle idx (fields 0 0)).wellFormed .reset = false := by decide

theorem test_wf_illegalIdle_sendable : (Instr.illegalIdle 63 ⟨3, 0, 0⟩).wellFormed .reset = false := by decide

theorem test_wf_discardedByte_not_token : (Instr.discardedByte 0xFE).wellFormed .reset = false := by decide

theorem test_wf_txViolation_not_filler : (Instr.txViolation 0xFF).wellFormed .reset = false := by decide

theorem test_phase_of_row : (Instr.cmd17 (fields 0 0)).inPhase (ctx .boot) = false ∧
    (Instr.acmd41 (fields 0 0)).inPhase (ctx .idleAcmd) = false ∧
    (Instr.writeCrcByte1 0).inPhase (ctx .writeCrc) = false ∧
    (Instr.cmd0 (fields 0 0)).inPhase ⟨.spiAcmd, 0, .illegal⟩ = false ∧
    (Instr.cmd0 (fields 0 0)).inPhase (ctx .readBlock) = false := by decide

/-! ### Decoding: words written from the table's "encoding" column, framing bits, index, argument and CRC byte -/

theorem test_decode_cmd0 : decode (ctx .boot) (.frame 0b010000000000000000000000000000000000000010010101) =
    .ok (.cmd0 ⟨1, 0x0, 0x95⟩) := by decide

theorem test_decode_illegalBoot : decode (ctx .boot) (.frame 0b010100010000000000000000000000000000000001010101) =
    .ok (.illegalBoot 17 ⟨1, 0x0, 0x55⟩) := by decide

theorem test_decode_cmd55 : decode (ctx .spi) (.frame 0b011101110000000000000000000000000000000001100101) =
    .ok (.cmd55 ⟨1, 0x0, 0x65⟩) := by decide

theorem test_decode_illegalSpi : decode (ctx .spi) (.frame 0b010010000000000000000000000000011010101010000111) =
    .ok (.illegalSpi 8 ⟨1, 0x1aa, 0x87⟩) := by decide

theorem test_decode_acmd41 : decode (ctx .spiAcmd) (.frame 0b011010010000000000000000000000000000000011100101) =
    .ok (.acmd41 ⟨1, 0x0, 0xe5⟩) := by decide

theorem test_decode_illegalSpiAcmd : decode (ctx .spiAcmd) (.frame 0b011101110000000000000000000000000000000001100101) =
    .ok (.illegalSpiAcmd 55 ⟨1, 0x0, 0x65⟩) := by decide

theorem test_decode_illegalIdleAcmd : decode (ctx .idleAcmd) (.frame 0b011010010000000000000000000000000000000011100101) =
    .ok (.illegalIdleAcmd 41 ⟨1, 0x0, 0xe5⟩) := by decide

theorem test_decode_cmd17 : decode (ctx .idle) (.frame 0b010100010000000000011110100001001000000010010001) =
    .ok (.cmd17 ⟨1, 0x1e8480, 0x91⟩) := by decide

theorem test_decode_cmd18 : decode (ctx .idle) (.frame 0b010100100000000000000000000000100000000011001101) =
    .ok (.cmd18 ⟨1, 0x200, 0xcd⟩) := by decide

theorem test_decode_cmd24 : decode (ctx .idle) (.frame 0b010110001111111111111111111111111111111101000101) =
    .ok (.cmd24 ⟨1, 0xffffffff, 0x45⟩) := by decide

theorem test_decode_cmd25 : decode (ctx .idle) (.frame 0b010110010000000000001111111111100000000001110001) =
    .ok (.cmd25 ⟨1, 0xffe00, 0x71⟩) := by decide

theorem test_decode_cmd13 : decode (ctx .idle) (.frame 0b110011010001001000110100010101100111100010011010) =
    .ok (.cmd13 ⟨3, 0x12345678, 0x9a⟩) := by decide

theorem test_decode_cmd55Idle : decode (ctx .idle) (.frame 0b011101110000000000000000000000000000000001100101) =
    .ok (.cmd55Idle ⟨1, 0x0, 0x65⟩) := by decide

theorem test_decode_cmd58 : decode (ctx .idle) (.frame 0b011110100000000000000000000000000000000011111101) =
    .ok (.cmd58 ⟨1, 0x0, 0xfd⟩) := by decide

theorem test_decode_illegalIdle : decode (ctx .idle) (.frame 0b011111110000000000000000000000000000000000000000) =
    .ok (.illegalIdle 63 ⟨1, 0x0, 0x0⟩) := by decide

theorem test_decode_frameByte : ∀ p ∈ [Phase.boot, .spi, .spiAcmd, .idle, .idleAcmd],
    decode (ctx p) (.byte 0b11111110) = .ok (.frameByte 0xFE) := by decide

theorem test_decode_startBlockToken : decode (ctx .writeStbt) (.byte 0b11111110) = .ok .startBlockToken := by decide

theorem test_decode_discardedByte : decode (ctx .writeStbt) (.byte 0b11111100) = .ok (.discardedByte 0xFC) := by decide

theorem test_decode_writeDataByte : decode (ctx .writeListen) (.byte 0b11111110) = .ok (.writeDataByte 0xFE) := by decide

theorem test_decode_writeCrcByte0 : decode ⟨.writeCrc, 0, .reset⟩ (.byte 0b00010101) = .ok (.writeCrcByte0 0x15) := by
  decide

theorem test_decode_writeCrcByte1 : decode ⟨.writeCrc, 1, .reset⟩ (.byte 0b10110011) = .ok (.writeCrcByte1 0xB3) := by
  decide

theorem test_decode_txFiller : decode (ctx .cmdResponse) (.byte 0b11111111) = .ok .txFiller ∧
    decode (ctx .readBlock) (.byte 0b11111111) = .ok .txFiller := by decide

theorem test_decode_txViolation : decode (ctx .cmdResponse) (.byte 0b01000000) = .ok (.txViolation 0x40) ∧
    decode (ctx .readBlock) (.byte 0b11111110) = .ok (.txViolation 0xFE) := by decide

theorem test_decode_csEvent : decode (ctx .idle) (.event (.cs 0)) = .ok (.csEvent 0) := by decide

theorem test_decode_mosiByte : decode (ctx .idle) (.event (.mosi 0x51)) = .ok (.mosiByte 0x51) := by decide

theorem test_decode_resetEvent : decode (ctx .idle) (.event .reset) = .ok .resetEvent := by decide

/-- V9 and V10: index 0 in SPI_ACMD under both values of CMD0_IN_SPI_ACMD. -/
theorem test_decode_cmd0_in_spiAcmd :
    decode ⟨.spiAcmd, 0, .illegal⟩ (.frame 0x400000000095) = .ok (.illegalSpiAcmd 0 (fields 0 0x95)) ∧
    decode ⟨.spiAcmd, 0, .reset⟩ (.frame 0x400000000095) = .ok (.cmd0 (fields 0 0x95)) := by decide

theorem test_decode_rejects_frame_in_readBlock :
    decode (ctx .readBlock) (.frame 0x400000000095) = .error (.notACommandPhase .readBlock) := by decide

/-- 30_encoding.md R72, R82: a filler byte is a unit of its own between frames, the rest is one frame. -/
theorem test_stream_units :
    decodeStream (ctx .idle) [0xFF, 0x51] = .ok (.frameByte 0xFF, [0x51]) ∧
    decodeStream (ctx .idle) [0x51, 0x00, 0x1E, 0x84, 0x80, 0x91, 0xFF] = .ok (.cmd17 (fields 2000000 0x91), [0xFF]) ∧
    decodeStream (ctx .idle) [0x51, 0x00] = .error (.shortFrame 2) ∧
    decodeStream (ctx .idle) [] = .error .noByte := by decide

theorem test_table_words :
    decodeTableWord 48 0x400000000000 = some (.cmd0 (fields 0 0)) ∧
    decodeTableWord 48 0x3A0000000000 = some (.cmd58 ⟨0, 0, 0⟩) ∧
    decodeTableWord 8 0xFE = some .startBlockToken ∧ decodeTableWord 8 0xFF = some .txFiller ∧
    decodeTableWord 1 1 = some (.csEvent 1) ∧ decodeTableWord 0 0 = some .resetEvent ∧
    decodeTableWord 16 0 = none := by decide

/-! ### The first step after reset -/

theorem test_step_reset_runs_cmd0 :
    got (step (State.reset.withFetchWord 48 0x400000000000)) response = some (.cmdResponse, .spi, [0x01]) := by rfl

theorem test_step_reset_runs_cmd13 :
    got (step (State.reset.withFetchWord 48 0x0D0000000000)) response = some (.cmdResponse, .idle, [0x00, 0x00]) := by rfl

theorem test_step_reset_runs_token :
    got (step (State.reset.withFetchWord 8 0xFE)) (fun t => (t.phase, t.miso)) = some (.writeListen, [0xFF]) := by rfl

theorem test_step_reset_runs_filler :
    got (step (State.reset.withFetchWord 8 0xFF)) (fun t => (t.phase, t.miso)) = some (.cmdResponse, [0x00]) := by rfl

theorem test_step_reset_runs_select : got (step (State.reset.withFetchWord 1 0)) (fun t => t.csSel) = some true := by rfl

theorem test_step_reset_waits : step State.reset = .next State.reset := by rfl

/-! ### Commands -/

/-- R132: CMD0 from the middle of things; chip-select is kept. -/
theorem test_cmd0 : got (exec (.cmd0 (fields 0 0x95)) { ready .idle with head := 512, crc16 := 0x1634, multi := true })
    (fun t => (response t, t.head, t.crc16, t.multi, t.csSel)) =
      some ((.cmdResponse, .spi, [0x01]), 0, 0xFFFF, false, true) := by decide

theorem test_illegalBoot :
    got (exec (.illegalBoot 17 (fields 0 0x55)) (ready .boot)) response = some (.cmdResponse, .boot, [0x04]) := by decide

/-- V11: ILLEGAL_R1 = 0x01. -/
theorem test_illegalBoot_code :
    got (exec (.illegalBoot 17 (fields 0 0x55)) { ready .boot with cfg := { cfg with illegalR1 := 0x01 } }) response =
      some (.cmdResponse, .boot, [0x01]) := by decide

theorem test_cmd55 : got (exec (.cmd55 (fields 0 0x65)) (ready .spi)) response = some (.cmdResponse, .spiAcmd, [0x01]) := by
  decide

theorem test_illegalSpi :
    got (exec (.illegalSpi 8 (fields 0x1AA 0x87)) (ready .spi)) response = some (.cmdResponse, .spi, [0x04]) := by decide

theorem test_acmd41 : got (exec (.acmd41 (fields 0 0xE5)) (ready .spiAcmd)) response = some (.cmdResponse, .idle, [0x00]) := by
  decide

theorem test_illegalSpiAcmd :
    got (exec (.illegalSpiAcmd 55 (fields 0 0x65)) (ready .spiAcmd)) response = some (.cmdResponse, .spiAcmd, [0x04]) := by
  decide

/-- D2: back to IDLE. -/
theorem test_illegalIdleAcmd :
    got (exec (.illegalIdleAcmd 41 (fields 0 0xE5)) (ready .idleAcmd)) response = some (.cmdResponse, .idle, [0x04]) := by
  decide

/-- V14: the last block of the store; V15: one byte further. -/
theorem test_cmd17_bounds :
    got (exec (.cmd17 (fields 0xFFE00 0x27)) { ready .idle with crc16 := 0x1634 })
      (fun t => (response t, t.head, t.crc16)) =
        some ((.cmdResponse, .readBlock, [0x00, 0xFE]), 0xFFE00, 0xFFFF) ∧
    got (exec (.cmd17 (fields 0xFFE01 0x35)) { ready .idle with head := 7, crc16 := 0x1634 })
      (fun t => (response t, t.head, t.crc16)) = some ((.cmdResponse, .idle, [0x20]), 7, 0x1634) := by decide

/-- V12: READ_R1_PREFIX = false. -/
theorem test_cmd17_without_r1 :
    got (exec (.cmd17 (fields 0 0x55)) { ready .idle with cfg := { cfg with readR1Prefix := false } }) response =
      some (.cmdResponse, .readBlock, [0xFE]) := by decide

/-- V28. -/
theorem test_cmd18 : got (exec (.cmd18 (fields 0x200 0xCD)) (ready .idle)) (fun t => (response t, t.head, t.multi)) =
    some ((.cmdResponse, .readBlock, [0x00, 0xFE]), 512, true) := by decide

/-- D14: refused by configuration. -/
theorem test_cmd18_refused :
    exec (.cmd18 (fields 0 0)) { ready .idle with cfg := { cfg with multiBlockMode := .refuse } } =
      .refused .multiBlockRefused := by rfl

/-- V18: no alignment check; V16: no 32-bit wrap. -/
theorem test_cmd24_bounds :
    got (exec (.cmd24 (fields 0x100 0x79)) (ready .idle)) (fun t => (response t, t.head)) =
      some ((.cmdResponse, .writeStbt, [0x00]), 256) ∧
    got (exec (.cmd24 (fields 0xFFFFFFFF 0x45)) (ready .idle)) (fun t => (response t, t.head)) =
      some ((.cmdResponse, .idle, [0x20]), 0) := by decide

/-- V44. -/
theorem test_cmd25 : got (exec (.cmd25 (fields 0xFFE00 0x71)) (ready .idle)) (fun t => (response t, t.head, t.multi)) =
    some ((.cmdResponse, .writeStbt, [0x00]), 0xFFE00, true) := by decide

theorem test_cmd25_refused :
    exec (.cmd25 (fields 0 0)) { ready .idle with cfg := { cfg with multiBlockMode := .refuse } } =
      .refused .multiBlockRefused := by rfl

/-- V7: framing bits, argument and CRC byte are ignored. -/
theorem test_cmd13 : got (exec (.cmd13 ⟨3, 0x12345678, 0x9A⟩) (ready .idle)) response =
    some (.cmdResponse, .idle, [0x00, 0x00]) := by decide

theorem test_cmd55Idle : got (exec (.cmd55Idle (fields 0 0x65)) (ready .idle)) response =
    some (.cmdResponse, .idleAcmd, [0x00]) := by decide

/-- V13: OCR_VALUE = 0xC0FF8000. -/
theorem test_cmd58 :
    got (exec (.cmd58 (fields 0 0xFD)) { ready .idle with cfg := { cfg with ocrValue := 0xC0FF8000 } }) response =
      some (.cmdResponse, .idle, [0x00, 0xC0, 0xFF, 0x80, 0x00]) := by decide

/-- V8. -/
theorem test_illegalIdle : got (exec (.illegalIdle 63 (fields 0 0)) (ready .idle)) response =
    some (.cmdResponse, .idle, [0x04]) := by decide

/-- V19: the elements after a shorter response keep their bytes. -/
theorem test_queue_keeps_the_tail :
    got (exec (.cmd24 (fields 2000000 0xAB)) { ready .idle with respBuf := #v[0x16, 0x34, 0, 0, 0] }) (fun t => t.respBuf) =
      some #v[0x20, 0x34, 0, 0, 0] := by decide

/-! ### Bytes -/

/-- V1 and V2. -/
theorem test_frameByte_filler_and_first :
    exec (.frameByte 0xFF) (ready .idle) = .next (ready .idle) ∧
    got (exec (.frameByte 0x51) (ready .idle)) (fun t => (t.cmdLen, t.cmdBuf)) = some (1, #v[0x51, 0, 0, 0, 0, 0]) := by
  constructor
  · rfl
  · decide

/-- V3 (0xFF inside a frame) and V5 (the sixth byte dispatches). -/
theorem test_frameByte_inside_and_last :
    got (exec (.frameByte 0xFF) { ready .idle with cmdLen := 1, cmdBuf := #v[0x51, 0, 0, 0, 0, 0] })
      (fun t => (t.cmdLen, t.cmdBuf)) = some (2, #v[0x51, 0xFF, 0, 0, 0, 0]) ∧
    got (exec (.frameByte 0x00) { ready .idle with cmdLen := 5, cmdBuf := #v[0x51, 0, 0, 0, 0, 0xE5] })
      (fun t => (response t, t.cmdLen, t.cmdBuf)) =
        some ((.cmdResponse, .readBlock, [0x00, 0xFE]), 0, #v[0x51, 0, 0, 0, 0, 0]) := by decide

/-- V34. -/
theorem test_startBlockToken :
    got (exec .startBlockToken { ready .writeStbt with crc16 := 0x1634 }) (fun t => (t.phase, t.crc16, t.blkCount)) =
      some (.writeListen, 0xFFFF, 0) := by decide

/-- V33. -/
theorem test_discardedByte : exec (.discardedByte 0xFC) (ready .writeStbt) = .next (ready .writeStbt) := by rfl

/-- V36. -/
theorem test_writeDataByte : got (exec (.writeDataByte 0xAA) (ready .writeListen))
    (fun t => (t.head, t.blkCount, t.crc16, t.memRead 0, t.phase)) =
      some (1, 1, 0xF550, some 0xAA, .writeListen) := by decide

/-- V37, its last byte. -/
theorem test_writeDataByte_last :
    got (exec (.writeDataByte 0xAA) { ready .writeListen with head := 511, blkCount := 511, wcrcOk := false })
      (fun t => (t.head, t.blkCount, t.phase, t.wcrcOk, t.memRead 511)) =
        some (512, 0, .writeCrc, true, some 0xAA) := by decide

/-- V38 and V41: the first byte against the low half 0x15 of 0xB315. -/
theorem test_writeCrcByte0 :
    got (exec (.writeCrcByte0 0x15) { ready .writeCrc with crc16 := 0xB315 }) (fun t => (t.wcrcOk, t.wcrcIdx)) =
      some (true, 1) ∧
    got (exec (.writeCrcByte0 0xB3) { ready .writeCrc with crc16 := 0xB315 }) (fun t => (t.wcrcOk, t.wcrcIdx)) =
      some (false, 1) := by decide

/-- V42: CRC_ENFORCE = false. -/
theorem test_writeCrcByte0_off :
    got (exec (.writeCrcByte0 0xB3) { ready .writeCrc with crc16 := 0xB315, cfg := { cfg with crcEnforce := false } })
      (fun t => t.wcrcOk) = some true := by decide

/-- V38 and V40. -/
theorem test_writeCrcByte1 :
    got (exec (.writeCrcByte1 0xB3) { ready .writeCrc with crc16 := 0xB315, wcrcIdx := 1 })
      (fun t => (response t, t.wcrcIdx)) = some ((.cmdResponse, .idle, [0x05]), 0) ∧
    got (exec (.writeCrcByte1 0x00) { ready .writeCrc with crc16 := 0xB315, wcrcIdx := 1 })
      (fun t => (response t, t.wcrcOk)) = some ((.cmdResponse, .idle, [0x0B]), false) := by decide

/-- V41: an earlier mismatch is not forgotten. -/
theorem test_writeCrcByte1_sticky :
    got (exec (.writeCrcByte1 0xB3) { ready .writeCrc with crc16 := 0xB315, wcrcIdx := 1, wcrcOk := false }) response =
      some (.cmdResponse, .idle, [0x0B]) := by decide

/-- An R2 with both bytes still to send. -/
def sending : State := { ready .cmdResponse with afterSend := .idle, respLen := 2, respBuf := #v[0x16, 0x34, 0, 0, 0] }

theorem test_txFiller : exec .txFiller sending = .next sending := by rfl

/-- V69. -/
theorem test_txViolation : got (exec (.txViolation 0x40) { sending with head := 512 })
    (fun t => (t.phase, t.respLen, t.head, t.csSel, t.respBuf)) = some (.boot, 0, 0, true, #v[0, 0, 0, 0, 0]) := by decide

/-! ### Port events -/

/-- V62. -/
theorem test_csEvent : got (exec (.csEvent 0) (State.create cfg)) (fun t => t.csSel) = some true ∧
    got (exec (.csEvent 1) (ready .idle)) (fun t => t.csSel) = some false := by decide

/-- V23 and V26: the last byte of a response, and its filler is accepted in the next phase. -/
theorem test_mosiByte_response :
    got (exec (.mosiByte 0xFF) { sending with afterSend := .readBlock, respBuf := #v[0, 0xFE, 0, 0, 0], respIdx := 1 })
      (fun t => (t.miso, t.phase, t.respLen, t.respIdx)) = some ([0xFE], .readBlock, 0, 0) ∧
    got (exec (.mosiByte 0x4D) { sending with respIdx := 1 }) (fun t => (t.miso, t.phase, t.cmdLen)) =
      some ([0x34], .idle, 1) := by decide

/-- V25 and V30: the 512th byte of a read block of zeros, answered by a filler and by something else. -/
theorem test_mosiByte_block :
    got (exec (.mosiByte 0xFF) { ready .readBlock with head := 511, blkCount := 511, crc16 := 0xBF40 })
      (fun t => (t.miso, response t, t.head, t.blkCount)) =
        some ([0x00], (.cmdResponse, .idle, [0x16, 0x34]), 512, 0) ∧
    got (exec (.mosiByte 0x00) { ready .readBlock with head := 511, blkCount := 511, crc16 := 0xBF40 })
      (fun t => (t.miso, t.phase, t.head, t.crc16)) = some ([0x00], .boot, 0, 0xFFFF) := by decide

/-- V66 and V67. -/
theorem test_resetEvent :
    got (exec .resetEvent { ready .writeListen with head := 100, blkCount := 100, store := [(0, 0xAA)] })
      (fun t => (t.phase, t.head, t.blkCount, t.csSel, t.memRead 0)) = some (.boot, 0, 0, true, some 0xAA) ∧
    got (exec .resetEvent { ready .idle with csSel := false }) (fun t => (t.phase, t.csSel)) = some (.boot, false) := by
  decide

/-- V61: nothing happens while deselected. -/
theorem test_deselected : exec (.mosiByte 0x40) (State.create cfg) = .next (State.create cfg) := by rfl

/-! ### The store's canonical form -/

theorem test_store_writes :
    Memory.write [(5, 0x77)] [] 5 0x11 = [(5, 0x11)] ∧ Memory.write [(5, 0x77)] [(5, 0x11)] 5 0x77 = [] ∧
    Memory.write [] [(4, 0x01)] 2 0x09 = [(2, 0x09), (4, 0x01)] ∧ Memory.write [] [(4, 0x01)] 4 0x00 = [] ∧
    Memory.read [(5, 0x77)] [] 5 = 0x77 ∧ Memory.read [(5, 0x77)] [] 6 = 0x00 := by decide

theorem test_store_ill_formed :
    Memory.wf [] [(4, 0x01), (2, 0x09)] = false ∧ Memory.wf [] [(2, 0x01), (2, 0x09)] = false ∧
    Memory.wf [] [(2, 0x00)] = false ∧ Memory.wf [(2, 0x07)] [(2, 0x00)] = true := by decide

/-! ### CRC engines: the check values and the tables of 42_crc.md -/

/-- V46 to V50. -/
theorem test_fold16 : fold16 0xFFFF 0x00 = 0xE1F0 ∧ fold16 0xFFFF 0xAA = 0xF550 ∧ fold16 0xF550 0xAA = 0xFB1A ∧
    fold16 0x0000 0x01 = 0x1021 ∧ fold16 0x1234 0x56 = 0x3C40 ∧ fold16Bitwise 0x1234 0x56 = 0x3C40 := by decide +kernel

/-- V51. -/
theorem test_crc16_check : crc16Of [0x31, 0x32, 0x33, 0x34, 0x35, 0x36, 0x37, 0x38, 0x39] = 0x29B1 := by decide +kernel

/-- V56 to V60. -/
theorem test_fold7 : fold7 0 0x40 = 0x64 ∧ fold7 0x40 0x00 = 0x41 ∧ crc7Of [0x40, 0, 0, 0, 0] = 0x4A ∧
    crc7FrameByte [0x40, 0, 0, 0, 0] = 0x95 ∧ crc7FrameByte [0x48, 0x00, 0x00, 0x01, 0xAA] = 0x87 ∧
    crc7FrameByte [0x51, 0x00, 0x1E, 0x84, 0x80] = 0x91 := by decide +kernel

/-- The notation's command bytes: V58 and V60. -/
theorem test_command_bytes : commandBytes 0 0 = [0x40, 0, 0, 0, 0, 0x95] ∧
    commandBytes 17 2000000 = [0x51, 0x00, 0x1E, 0x84, 0x80, 0x91] := by decide +kernel

theorem test_t16_from_0x00 :
    (List.range 64).map (fun j => t16 (BitVec.ofNat 8 (0 + j))) =
      [0x0000, 0x1021, 0x2042, 0x3063, 0x4084, 0x50A5, 0x60C6, 0x70E7] ++
      [0x8108, 0x9129, 0xA14A, 0xB16B, 0xC18C, 0xD1AD, 0xE1CE, 0xF1EF] ++
      [0x1231, 0x0210, 0x3273, 0x2252, 0x52B5, 0x4294, 0x72F7, 0x62D6] ++
      [0x9339, 0x8318, 0xB37B, 0xA35A, 0xD3BD, 0xC39C, 0xF3FF, 0xE3DE] ++
      [0x2462, 0x3443, 0x0420, 0x1401, 0x64E6, 0x74C7, 0x44A4, 0x5485] ++
      [0xA56A, 0xB54B, 0x8528, 0x9509, 0xE5EE, 0xF5CF, 0xC5AC, 0xD58D] ++
      [0x3653, 0x2672, 0x1611, 0x0630, 0x76D7, 0x66F6, 0x5695, 0x46B4] ++
      [0xB75B, 0xA77A, 0x9719, 0x8738, 0xF7DF, 0xE7FE, 0xD79D, 0xC7BC] := by decide +kernel

theorem test_t16_from_0x40 :
    (List.range 64).map (fun j => t16 (BitVec.ofNat 8 (64 + j))) =
      [0x48C4, 0x58E5, 0x6886, 0x78A7, 0x0840, 0x1861, 0x2802, 0x3823] ++
      [0xC9CC, 0xD9ED, 0xE98E, 0xF9AF, 0x8948, 0x9969, 0xA90A, 0xB92B] ++
      [0x5AF5, 0x4AD4, 0x7AB7, 0x6A96, 0x1A71, 0x0A50, 0x3A33, 0x2A12] ++
      [0xDBFD, 0xCBDC, 0xFBBF, 0xEB9E, 0x9B79, 0x8B58, 0xBB3B, 0xAB1A] ++
      [0x6CA6, 0x7C87, 0x4CE4, 0x5CC5, 0x2C22, 0x3C03, 0x0C60, 0x1C41] ++
      [0xEDAE, 0xFD8F, 0xCDEC, 0xDDCD, 0xAD2A, 0xBD0B, 0x8D68, 0x9D49] ++
      [0x7E97, 0x6EB6, 0x5ED5, 0x4EF4, 0x3E13, 0x2E32, 0x1E51, 0x0E70] ++
      [0xFF9F, 0xEFBE, 0xDFDD, 0xCFFC, 0xBF1B, 0xAF3A, 0x9F59, 0x8F78] := by decide +kernel

theorem test_t16_from_0x80 :
    (List.range 64).map (fun j => t16 (BitVec.ofNat 8 (128 + j))) =
      [0x9188, 0x81A9, 0xB1CA, 0xA1EB, 0xD10C, 0xC12D, 0xF14E, 0xE16F] ++
      [0x1080, 0x00A1, 0x30C2, 0x20E3, 0x5004, 0x4025, 0x7046, 0x6067] ++
      [0x83B9, 0x9398, 0xA3FB, 0xB3DA, 0xC33D, 0xD31C, 0xE37F, 0xF35E] ++
      [0x02B1, 0x1290, 0x22F3, 0x32D2, 0x4235, 0x5214, 0x6277, 0x7256] ++
      [0xB5EA, 0xA5CB, 0x95A8, 0x8589, 0xF56E, 0xE54F, 0xD52C, 0xC50D] ++
      [0x34E2, 0x24C3, 0x14A0, 0x0481, 0x7466, 0x6447, 0x5424, 0x4405] ++
      [0xA7DB, 0xB7FA, 0x8799, 0x97B8, 0xE75F, 0xF77E, 0xC71D, 0xD73C] ++
      [0x26D3, 0x36F2, 0x0691, 0x16B0, 0x6657, 0x7676, 0x4615, 0x5634] := by decide +kernel

theorem test_t16_from_0xC0 :
    (List.range 64).map (fun j => t16 (BitVec.ofNat 8 (192 + j))) =
      [0xD94C, 0xC96D, 0xF90E, 0xE92F, 0x99C8, 0x89E9, 0xB98A, 0xA9AB] ++
      [0x5844, 0x4865, 0x7806, 0x6827, 0x18C0, 0x08E1, 0x3882, 0x28A3] ++
      [0xCB7D, 0xDB5C, 0xEB3F, 0xFB1E, 0x8BF9, 0x9BD8, 0xABBB, 0xBB9A] ++
      [0x4A75, 0x5A54, 0x6A37, 0x7A16, 0x0AF1, 0x1AD0, 0x2AB3, 0x3A92] ++
      [0xFD2E, 0xED0F, 0xDD6C, 0xCD4D, 0xBDAA, 0xAD8B, 0x9DE8, 0x8DC9] ++
      [0x7C26, 0x6C07, 0x5C64, 0x4C45, 0x3CA2, 0x2C83, 0x1CE0, 0x0CC1] ++
      [0xEF1F, 0xFF3E, 0xCF5D, 0xDF7C, 0xAF9B, 0xBFBA, 0x8FD9, 0x9FF8] ++
      [0x6E17, 0x7E36, 0x4E55, 0x5E74, 0x2E93, 0x3EB2, 0x0ED1, 0x1EF0] := by decide +kernel

theorem test_t7_from_0x00 :
    (List.range 128).map (fun j => t7 (BitVec.ofNat 8 (0 + j))) =
      [0x00, 0x09, 0x12, 0x1B, 0x24, 0x2D, 0x36, 0x3F, 0x48, 0x41, 0x5A, 0x53, 0x6C, 0x65, 0x7E, 0x77] ++
      [0x19, 0x10, 0x0B, 0x02, 0x3D, 0x34, 0x2F, 0x26, 0x51, 0x58, 0x43, 0x4A, 0x75, 0x7C, 0x67, 0x6E] ++
      [0x32, 0x3B, 0x20, 0x29, 0x16, 0x1F, 0x04, 0x0D, 0x7A, 0x73, 0x68, 0x61, 0x5E, 0x57, 0x4C, 0x45] ++
      [0x2B, 0x22, 0x39, 0x30, 0x0F, 0x06, 0x1D, 0x14, 0x63, 0x6A, 0x71, 0x78, 0x47, 0x4E, 0x55, 0x5C] ++
      [0x64, 0x6D, 0x76, 0x7F, 0x40, 0x49, 0x52, 0x5B, 0x2C, 0x25, 0x3E, 0x37, 0x08, 0x01, 0x1A, 0x13] ++
      [0x7D, 0x74, 0x6F, 0x66, 0x59, 0x50, 0x4B, 0x42, 0x35, 0x3C, 0x27, 0x2E, 0x11, 0x18, 0x03, 0x0A] ++
      [0x56, 0x5F, 0x44, 0x4D, 0x72, 0x7B, 0x60, 0x69, 0x1E, 0x17, 0x0C, 0x05, 0x3A, 0x33, 0x28, 0x21] ++
      [0x4F, 0x46, 0x5D, 0x54, 0x6B, 0x62, 0x79, 0x70, 0x07, 0x0E, 0x15, 0x1C, 0x23, 0x2A, 0x31, 0x38] := by decide +kernel

theorem test_t7_from_0x80 :
    (List.range 128).map (fun j => t7 (BitVec.ofNat 8 (128 + j))) =
      [0x41, 0x48, 0x53, 0x5A, 0x65, 0x6C, 0x77, 0x7E, 0x09, 0x00, 0x1B, 0x12, 0x2D, 0x24, 0x3F, 0x36] ++
      [0x58, 0x51, 0x4A, 0x43, 0x7C, 0x75, 0x6E, 0x67, 0x10, 0x19, 0x02, 0x0B, 0x34, 0x3D, 0x26, 0x2F] ++
      [0x73, 0x7A, 0x61, 0x68, 0x57, 0x5E, 0x45, 0x4C, 0x3B, 0x32, 0x29, 0x20, 0x1F, 0x16, 0x0D, 0x04] ++
      [0x6A, 0x63, 0x78, 0x71, 0x4E, 0x47, 0x5C, 0x55, 0x22, 0x2B, 0x30, 0x39, 0x06, 0x0F, 0x14, 0x1D] ++
      [0x25, 0x2C, 0x37, 0x3E, 0x01, 0x08, 0x13, 0x1A, 0x6D, 0x64, 0x7F, 0x76, 0x49, 0x40, 0x5B, 0x52] ++
      [0x3C, 0x35, 0x2E, 0x27, 0x18, 0x11, 0x0A, 0x03, 0x74, 0x7D, 0x66, 0x6F, 0x50, 0x59, 0x42, 0x4B] ++
      [0x17, 0x1E, 0x05, 0x0C, 0x33, 0x3A, 0x21, 0x28, 0x5F, 0x56, 0x4D, 0x44, 0x7B, 0x72, 0x69, 0x60] ++
      [0x0E, 0x07, 0x1C, 0x15, 0x2A, 0x23, 0x38, 0x31, 0x46, 0x4F, 0x54, 0x5D, 0x62, 0x6B, 0x70, 0x79] := by decide +kernel

/-- A block command runs as well, whatever the capacity: it answers 0x00 0xFE or the address error. -/
theorem test_step_reset_runs_cmd17 : ∃ t, step (State.reset.withFetchWord 48 0x110000000000) = .next t ∧ t.cmdLen.val = 0 :=
  ⟨_, rfl, rfl⟩

/-! ### Witnesses: for each statement with hypotheses, data that meets all of them (each clause at a boundary) -/

theorem witness_DecodeOfEncode :
    (Instr.cmd17 (fields 2000000 0x91)).wellFormed .reset = true ∧
      (Instr.cmd17 (fields 2000000 0x91)).inPhase (ctx .idle) = true ∧
    (Instr.illegalSpiAcmd 0 (fields 0 0x95)).wellFormed .illegal = true ∧
      (Instr.illegalSpiAcmd 0 (fields 0 0x95)).inPhase ⟨.spiAcmd, 0, .illegal⟩ = true ∧
    (Instr.illegalIdle 63 ⟨2, 0, 0⟩).wellFormed .reset = true ∧
      (Instr.illegalIdle 63 ⟨2, 0, 0⟩).inPhase (ctx .idle) = true := by decide

theorem witness_EncodeOfDecode :
    decode (ctx .idle) (.frame 0x7F0000000000) = .ok (.illegalIdle 63 (fields 0 0)) ∧
    (∀ w, CodeUnit.frame 0x7F0000000000 = .frame w → (frameBytes w)[0] ≠ 0xFF) ∧
    decode (ctx .idle) (.frame 0xFF0000000000) = .ok (.illegalIdle 63 ⟨3, 0, 0⟩) := by
  refine ⟨by decide, ?_, by decide⟩
  rintro w ⟨⟩
  decide

theorem witness_StreamDecodesSentFrame : (Instr.illegalBoot 63 ⟨2, 5, 9⟩).format = .commandFrame48 ∧
    (Instr.illegalBoot 63 ⟨2, 5, 9⟩).wellFormed .reset = true ∧
    (Instr.illegalBoot 63 ⟨2, 5, 9⟩).inPhase (ctx .boot) = true := by decide

theorem witness_CommandMapOfEveryPhase :
    (ctx .boot).phase = .boot ∧ (ctx .spi).phase = .spi ∧ (ctx .spiAcmd).phase = .spiAcmd ∧
    (ctx .idleAcmd).phase = .idleAcmd ∧ (ctx .idle).phase = .idle ∧
    frameIndex 0x400000000095 = 0 ∧ frameIndex 0x4D0000000000 = 13 ∧ frameIndex 0x510000000055 = 17 ∧
    frameIndex 0x520000000000 = 18 ∧ frameIndex 0x580000000000 = 24 ∧ frameIndex 0x590000000000 = 25 ∧
    frameIndex 0x770000000065 = 55 ∧ frameIndex 0x7A00000000FD = 58 ∧
    (∀ idx ∈ ([1, 12, 14, 16, 19, 23, 26, 41, 54, 56, 57, 59, 63] : List (BitVec 6)),
      idx ∉ ([0, 13, 17, 18, 24, 25, 55, 58] : List (BitVec 6))) ∧
    (ctx .writeCrc).phase.isCommand = false := by decide

theorem witness_StepRunsNextEvent : { ready .idle with inputs := [.cs 1] }.inputs = .cs 1 :: [] ∧
    (ready .idle).inputs = [] := by decide

theorem witness_ExchangeProducesThenAccepts : (ready .idle).csSel = true ∧
    produce (ready .idle) = .ok (0xFF, ready .idle) := ⟨rfl, rfl⟩

theorem witness_ByteMeaningOfEveryPhase :
    (ctx .idleAcmd).phase.isCommand = true ∧ (ctx .writeStbt).phase = .writeStbt ∧ (0xFF : Byte) ≠ 0xFE ∧
    (ctx .writeListen).phase = .writeListen ∧ (ctx .writeCrc).phase = .writeCrc ∧ (ctx .writeCrc).wcrcIdx = 0 ∧
    (DecodeCtx.mk .writeCrc 1 .reset).phase = .writeCrc ∧ (DecodeCtx.mk .writeCrc 1 .reset).wcrcIdx = 1 ∧
    (ctx .readBlock).phase.isTx = true ∧ (0xFE : Byte) ≠ 0xFF := by decide

theorem witness_FrameByteAssemblesAndDispatches : (ready .boot).phase.isCommand = true ∧
    (ready .boot).cmdLen.val = 0 ∧ (ready .boot).cmdLen.val < 5 ∧ ¬((ready .boot).cmdLen.val = 0 ∧ (0x40 : Byte) = 0xFF) ∧
    (1 : Fin 6).val = (ready .boot).cmdLen.val + 1 ∧
    { ready .boot with cmdLen := 4 }.cmdLen.val < 5 ∧
    (5 : Fin 6).val = { ready .boot with cmdLen := 4 }.cmdLen.val + 1 ∧
    { ready .boot with cmdLen := 5 }.cmdLen.val = 5 := by decide

/-- An instance that refuses CMD18, one byte before it does. -/
def refusing : State :=
  { ready .idle with cmdLen := 5, cmdBuf := #v[0x52, 0, 0, 0, 0, 0], cfg := { cfg with multiBlockMode := .refuse } }

theorem awaits_refusing : AwaitsRefusedFrame refusing := by
  unfold AwaitsRefusedFrame
  decide

theorem not_awaits_ready (p : Phase) : ¬AwaitsRefusedFrame (ready p) := by
  rintro ⟨h, -⟩
  exact nomatch (show MultiBlockMode.single = .refuse from h)

theorem witness_FrameByteCompletesUnlessRefused :
    (ready .idle).phase.isCommand = true ∧ ¬AwaitsRefusedFrame (ready .idle) ∧
    refusing.phase.isCommand = true ∧ AwaitsRefusedFrame refusing :=
  ⟨rfl, not_awaits_ready _, rfl, awaits_refusing⟩

theorem witness_Cmd0ResetsAndAnswersIdle : (ctx .spiAcmd).phase.isCommand = true ∧
    ¬((ctx .spiAcmd).phase = .spiAcmd ∧ (ctx .spiAcmd).cmd0InSpiAcmd = .illegal) ∧ frameIndex 0x400000000095 = 0 := by
  decide

theorem witness_Cmd55EntersTheAcmdPhase : frameIndex 0x770000000065 = 55 ∧ (ctx .spi).phase = .spi ∧
    (ctx .idle).phase = .idle := by decide

/-- The last address a block may start at. -/
theorem witness_ReadCommandsStartABlock :
    (fields 0xFFE00 0).arg.toNat + 512 ≤ (ready .idle).cfg.capacity ∧ (ready .idle).cfg.multiBlockMode = .single := by
  decide

theorem witness_SingleBlockWriteChecksAndAwaitsTheToken :
    (fields 0xFFE00 0).arg.toNat + 512 ≤ (ready .idle).cfg.capacity ∧
    (ready .idle).cfg.capacity < (fields 0xFFE01 0).arg.toNat + 512 := by decide

theorem witness_MultiBlockWriteAwaitsTheToken :
    (fields 0xFFE00 0).arg.toNat + 512 ≤ (ready .idle).cfg.capacity ∧ (ready .idle).cfg.multiBlockMode = .single := by
  decide

/-- The first address no block may start at. -/
theorem witness_OutOfRangeBlocksAreAddressErrors :
    (ready .idle).cfg.capacity < (fields 0xFFE01 0).arg.toNat + 512 ∧ (ready .idle).cfg.multiBlockMode = .single := by
  decide

theorem witness_MultiBlockRefusedByConfiguration : refusing.cfg.multiBlockMode = .refuse := by decide

/-- CMD17 with one argument and two CRC bytes and framings, and CMD13 with two arguments. -/
theorem witness_IgnoredFrameFieldsHaveNoEffect :
    frameIndex 0x510000020055 = frameIndex 0xD10000020000 ∧
    (frameFields 0x510000020055).arg = (frameFields 0xD10000020000).arg ∧
    decodeFrame (ctx .idle) 0x510000020055 = .ok (.cmd17 ⟨1, 0x200, 0x55⟩) ∧
    decodeFrame (ctx .idle) 0xD10000020000 = .ok (.cmd17 ⟨3, 0x200, 0⟩) ∧
    frameIndex 0x4D0000000000 = frameIndex 0x4D1234567800 ∧
    frameIndex 0x4D0000000000 ∉ ([17, 18, 24, 25] : List (BitVec 6)) ∧
    decodeFrame (ctx .idle) 0x4D0000000000 = .ok (.cmd13 ⟨1, 0, 0⟩) ∧
    decodeFrame (ctx .idle) 0x4D1234567800 = .ok (.cmd13 ⟨1, 0x12345678, 0⟩) := by decide

/-- The last byte of the store. -/
theorem witness_WriteDataByteStoresAtHead :
    { ready .writeListen with head := 1048575, blkCount := 511 }.head < cfg.capacity ∧
    Memory.wf (ready .writeListen).cfg.initialImage (ready .writeListen).store = true ∧
    { ready .writeListen with head := 1048575, blkCount := 511 }.blkCount.val = 511 ∧
    { ready .writeListen with blkCount := 510 }.blkCount.val ≠ 511 := by decide

theorem witness_FirstCrcByteChecksTheLowHalf :
    { ready .writeCrc with crc16 := 0xB315 }.cfg.crcEnforce = true ∧ (0xB3 : Byte) ≠ BitVec.extractLsb' 0 8 0xB315#16 ∧
    (0x15 : Byte) = BitVec.extractLsb' 0 8 0xB315#16 := by decide

theorem witness_SecondCrcByteQueuesTheToken :
    { ready .writeCrc with crc16 := 0xB315 }.cfg.crcEnforce = true ∧ (0x15 : Byte) ≠ BitVec.extractLsb' 8 8 0xB315#16 ∧
    (0xB3 : Byte) = BitVec.extractLsb' 8 8 0xB315#16 ∧
    ∃ u : State, u = { ready .writeCrc with wcrcOk := false } ∧ u.wcrcOk = false := ⟨rfl, by decide, by decide, _, rfl, rfl⟩

theorem witness_WriteTrailerVerdictIsLowByteFirst :
    { ready .writeCrc with inputs := [.mosi 0x15, .mosi 0xB3] }.phase = .writeCrc ∧ (ready .writeCrc).wcrcIdx.val = 0 ∧
    (ready .writeCrc).wcrcOk = true ∧ (ready .writeCrc).csSel = true ∧
    { ready .writeCrc with inputs := [.mosi 0x15, .mosi 0xB3] }.inputs = .mosi 0x15 :: .mosi 0xB3 :: [] := by decide

theorem witness_ProduceSendsTheQueuedByte : sending.phase = .cmdResponse ∧ State.pending sending = 0x16 :: [0x34] ∧
    State.pending { sending with respIdx := 1 } = 0x34 :: [] := by decide

theorem witness_ProduceStreamsTheStore :
    { ready .readBlock with head := 1048575, blkCount := 511 }.phase = .readBlock ∧
    { ready .readBlock with head := 1048575, blkCount := 511 }.head < cfg.capacity ∧
    { ready .readBlock with head := 1048575, blkCount := 511 }.blkCount.val = 511 ∧
    { ready .readBlock with blkCount := 510 }.blkCount.val ≠ 511 := by decide

theorem witness_ProducePlaceholderWhileCrcArrives : (ready .writeCrc).phase = .writeCrc := by decide

theorem witness_ProduceIsFillerElsewhere :
    (ready .boot).phase ∈ [Phase.boot, .spi, .spiAcmd, .idle, .idleAcmd, .writeStbt, .writeListen] ∧
    (ready .writeListen).phase ∈ [Phase.boot, .spi, .spiAcmd, .idle, .idleAcmd, .writeStbt, .writeListen] := by decide

theorem witness_MisoIndependentOfMosi :
    (∃ t, exec (.mosiByte 0xFF) sending = .next t) ∧ ∃ t, exec (.mosiByte 0x40) sending = .next t := ⟨⟨_, rfl⟩, _, rfl⟩

theorem witness_DeselectedByteIsIgnored : (State.create cfg).csSel = false := by decide

theorem witness_DeselectionPausesTheTransaction : (ready .idle).csSel = true ∧
    { ready .idle with inputs := .cs 1 :: ([0x11, 0x22].map PortEvent.mosi ++ [PortEvent.cs 0]) }.inputs =
      .cs 1 :: ([0x11, 0x22].map PortEvent.mosi ++ .cs 0 :: []) := by decide

theorem witness_ResetIsIdempotent : ∃ t, exec .resetEvent (ready .readBlock) = .next t := ⟨_, rfl⟩

/-- An engine that is ready in a command phase meets the invariant. -/
theorem inv_ready_idle (is : List PortEvent) : Inv { ready .idle with inputs := is } := by
  constructor <;> first | decide | exact (by decide : cfg.valid) | rfl | simp [ready, State.create]

theorem inv_sending (is : List PortEvent) : Inv { sending with inputs := is } := by
  constructor <;> first | decide | exact (by decide : cfg.valid) | rfl | simp [sending, ready, State.create]

theorem inv_writeListen : Inv { ready .writeListen with head := 511, blkCount := 511, inputs := [.mosi 0xAA] } := by
  constructor <;> decide

theorem witness_MosiByteCompletes : Inv (ready .idle) ∧ ¬((ready .idle).csSel = true ∧ AwaitsRefusedFrame (ready .idle)) ∧
    (ready .idle).csSel = true :=
  ⟨inv_ready_idle [], fun h => not_awaits_ready _ h.2, rfl⟩

theorem witness_InvKeptByStep : Inv { sending with inputs := [.mosi 0xFF] } ∧
    ∃ t, step { sending with inputs := [.mosi 0xFF] } = .next t := ⟨inv_sending _, _, rfl⟩

theorem witness_EngineNeverStops : Inv { ready .idle with inputs := [.mosi 0x40, .reset] } ∧
    (ready .idle).cfg.multiBlockMode = .single := ⟨inv_ready_idle _, rfl⟩

/-- The last byte of the store and the first address after it. -/
theorem witness_StoreReadAfterWrite :
    Memory.wf (ready .idle).cfg.initialImage (ready .idle).store = true ∧ 1048575 < (ready .idle).cfg.capacity ∧
    (ready .idle).cfg.capacity ≤ 1048576 ∧ (0 : Nat) ≠ 1048575 := by decide

theorem witness_CreationState : (0 : Nat) < cfg.capacity ∧ 1048575 < cfg.capacity := by decide

theorem witness_OnlyDataBytesWriteTheStore :
    Inv { ready .writeListen with head := 511, blkCount := 511, inputs := [.mosi 0xAA] } ∧
    ∃ t, step { ready .writeListen with head := 511, blkCount := 511, inputs := [.mosi 0xAA] } = .next t ∧
      t.memRead 511 ≠ { ready .writeListen with head := 511, blkCount := 511, inputs := [.mosi 0xAA] }.memRead 511 :=
  ⟨inv_writeListen, _, rfl, by decide⟩

theorem witness_ConfigAndChipSelectOwners :
    ∃ t, step { ready .idle with inputs := [.cs 1] } = .next t ∧ t.csSel ≠ (ready .idle).csSel := ⟨_, rfl, by decide⟩

theorem witness_ProducePhaseMoves :
    (∃ t, produce { sending with respIdx := 1 } = .ok (0x34, t) ∧ t.phase ≠ sending.phase) ∧
    ∃ out t, produce { ready .readBlock with blkCount := 511 } = .ok (out, t) ∧ t.phase ≠ .readBlock :=
  ⟨⟨_, rfl, by decide⟩, _, _, rfl, by decide⟩

theorem witness_AcceptPhaseMoves :
    (∃ t, accept 0x95 { ready .boot with cmdLen := 5, cmdBuf := #v[0x40, 0, 0, 0, 0, 0] } = .next t ∧ t.phase ≠ .boot) ∧
    (∃ t, accept 0xFE (ready .writeStbt) = .next t ∧ t.phase ≠ .writeStbt) ∧
    (∃ t, accept 0xAA { ready .writeListen with blkCount := 511 } = .next t ∧ t.phase ≠ .writeListen) ∧
    (∃ t, accept 0xB3 { ready .writeCrc with wcrcIdx := 1 } = .next t ∧ t.phase ≠ .writeCrc) ∧
    ∃ t, accept 0x00 sending = .next t ∧ t.phase ≠ sending.phase :=
  ⟨⟨_, rfl, by decide⟩, ⟨_, rfl, by decide⟩, ⟨_, rfl, by decide⟩, ⟨_, rfl, by decide⟩, _, rfl, by decide⟩

theorem witness_TokenWaitHasNoBound : (ready .writeStbt).phase = .writeStbt ∧ (ready .writeStbt).csSel = true ∧
    (∀ b ∈ ([0x40, 0xFF] : List Byte), b ≠ 0xFE) ∧
    { ready .writeStbt with inputs := [.mosi 0x40, .mosi 0xFF] }.inputs = [0x40, 0xFF].map PortEvent.mosi ++ [] := by
  decide

theorem witness_ResponseIsSentWhole :
    Inv { sending with inputs := [.mosi 0xFF, .mosi 0xFF] } ∧ sending.phase = .cmdResponse ∧ sending.csSel = true ∧
    { sending with inputs := [.mosi 0xFF, .mosi 0xFF] }.inputs =
      (List.replicate (State.pending { sending with inputs := [.mosi 0xFF, .mosi 0xFF] }).length (0xFF : Byte)).map
        PortEvent.mosi ++ [] := ⟨inv_sending _, rfl, rfl, by decide⟩

theorem witness_SixBytesRunTheirCommand : (ready .boot).phase.isCommand = true ∧ (ready .boot).cmdLen.val = 0 ∧
    (ready .boot).csSel = true ∧ (#v[0x40, 0, 0, 0, 0, 0x95] : Vector Byte 6)[0] ≠ 0xFF ∧
    { ready .boot with inputs := [.mosi 0x40, .mosi 0, .mosi 0, .mosi 0, .mosi 0, .mosi 0x95] }.inputs =
      (#v[0x40, 0, 0, 0, 0, 0x95] : Vector Byte 6).toList.map PortEvent.mosi ++ [] := by decide

/-- A block that ends at the top of the store. -/
theorem witness_WrittenBlockIsStored :
    ∃ (s : State) (d : List Byte), d.length = 512 ∧ s.phase = .writeListen ∧ s.blkCount.val = 0 ∧ s.csSel = true ∧
      s.head + 512 ≤ s.cfg.capacity ∧ Memory.wf s.cfg.initialImage s.store = true ∧
      s.inputs = d.map PortEvent.mosi ++ [] :=
  ⟨{ ready .writeListen with head := 0xFFE00, inputs := (List.replicate 512 0xAA).map .mosi ++ [] },
    List.replicate 512 0xAA, List.length_replicate, rfl, rfl, rfl, by decide, rfl, rfl⟩

theorem witness_ReadBlockStreamsTheStore :
    ∃ (s : State) (d : List Byte), d.length = 512 ∧ s.phase = .readBlock ∧ s.blkCount.val = 0 ∧ s.csSel = true ∧
      (∀ k, k < 512 → s.memRead (s.head + k) = d[k]?) ∧
      s.inputs = (List.replicate 512 (0xFF : Byte)).map PortEvent.mosi ++ [] := by
  refine ⟨{ ready .readBlock with inputs := (List.replicate 512 0xFF).map .mosi ++ [] }, List.replicate 512 0x00,
    List.length_replicate, rfl, rfl, rfl, fun k hk => ?_, rfl⟩
  have hlt : 0 + k < 1048576 := by omega
  rw [List.getElem?_replicate, if_pos hk]
  exact if_pos hlt

theorem witness_WriteThenReadReturnsThePayload :
    ∃ (s : State) (a : BitVec 32) (d : List Byte), Inv s ∧ s.phase = .idle ∧ s.cmdLen.val = 0 ∧ s.csSel = true ∧
      d.length = 512 ∧ a.toNat + 512 ≤ s.cfg.capacity ∧ s.inputs = writeEvents a d ++ readEvents a ++ [] :=
  ⟨{ ready .idle with inputs := writeEvents 0xFFE00 (List.replicate 512 0xAA) ++ readEvents 0xFFE00 ++ [] }, 0xFFE00,
    List.replicate 512 0xAA, inv_ready_idle _, rfl, rfl, rfl, List.length_replicate, by decide, rfl⟩

theorem witness_CrcDetectsAChangedByte : (0xAA : Byte) ≠ 0xAB := by decide

end Sys2Proof.Tests.Slice0
end

section
/-! SUPPORT. What a step can do, layer by layer: the commands, the frame byte, Accept, the exchange and the step. -/

namespace Sys2Proof.Machine

/-! ### Commands -/

/-- All a command row does: CMD0's reset, a queued response that returns to a command phase, or the start of a block. -/
theorem runCommand_cases {i : Instr} {s t : State} (h : runCommand i s = .next t) :
    t = queue .r1Idle .spi (fullReset s) ∨
    (∃ r next, next.isCommand = true ∧ t = queue r next s) ∨
    (∃ arg multi, t = startRead arg multi s) ∨
    (∃ arg multi, t = startWrite arg multi s) := by
  cases i
  case cmd0 => cases h; exact .inl rfl
  case illegalBoot | cmd55 | illegalSpi | acmd41 | illegalSpiAcmd | illegalIdleAcmd | cmd13 | cmd55Idle | cmd58
      | illegalIdle => cases h; exact .inr (.inl ⟨_, _, rfl, rfl⟩)
  case cmd17 f => cases h; exact .inr (.inr (.inl ⟨f.arg, false, rfl⟩))
  case cmd24 f => cases h; exact .inr (.inr (.inr ⟨f.arg, false, rfl⟩))
  case cmd18 f =>
    simp only [runCommand, execCmd18] at h
    split at h
    · cases h; exact .inr (.inr (.inl ⟨f.arg, true, rfl⟩))
    · exact nomatch h
  case cmd25 f =>
    simp only [runCommand, execCmd25] at h
    split at h
    · cases h; exact .inr (.inr (.inr ⟨f.arg, true, rfl⟩))
    · exact nomatch h
  -- The rows that are no commands are refused.
  all_goals exact nomatch h

/-- A dispatch that answers has run the row the decoder gives the captured frame. -/
theorem dispatchFrame_eq_next {s t : State} (h : dispatchFrame s = .next t) :
    ∃ i, decodeFrame s.decodeCtx s.frameWord = .ok i ∧ runCommand i s = .next t := by
  unfold dispatchFrame at h
  split at h
  · next i hi => exact ⟨i, hi, h⟩
  · exact nomatch h

/-! ### Accept -/

/-- All a frame byte does: filler before a frame, a captured byte, or the dispatch of the frame it completes. -/
theorem execFrameByte_cases {s t : State} {b : Byte} (h : execFrameByte b s = .next t) :
    (s.cmdLen = 0 ∧ b = fillerByte ∧ t = s) ∨
    (∃ n : Fin 6, n.val = s.cmdLen.val + 1 ∧ t = { s with cmdBuf := s.cmdBuf.set s.cmdLen b, cmdLen := n }) ∨
    (s.cmdLen.val = 5 ∧ ∃ u, dispatchFrame { s with cmdBuf := s.cmdBuf.set 5 b } = .next u ∧
      t = { u with cmdLen := 0 }) := by
  by_cases hfill : s.cmdLen = 0 ∧ b = fillerByte
  · rw [execFrameByte_filler hfill.1 hfill.2] at h
    cases h
    exact .inl ⟨hfill.1, hfill.2, rfl⟩
  · by_cases h5 : s.cmdLen.val = 5
    · rw [execFrameByte_sixth b h5] at h
      obtain ⟨u, hu, ht⟩ := andThen_eq_next h
      cases ht
      exact .inr (.inr ⟨h5, u, hu, rfl⟩)
    · have hn : s.cmdLen.val + 1 < 6 := by omega
      rw [execFrameByte_capture hfill ⟨s.cmdLen.val + 1, hn⟩ rfl] at h
      cases h
      exact .inr (.inl ⟨⟨s.cmdLen.val + 1, hn⟩, rfl, rfl⟩)

/-- All Accept does, by phase (40_byte_engine.md R101 to R107). -/
theorem accept_cases {s t : State} {b : Byte} (h : accept b s = .next t) :
    (s.phase.isCommand = true ∧ execFrameByte b s = .next t) ∨
    (s.phase = .writeStbt ∧ b = startToken ∧
      t = { s with phase := .writeListen, crc16 := crc16Init, blkCount := 0 }) ∨
    (s.phase = .writeStbt ∧ b ≠ startToken ∧ t = s) ∨
    (s.phase = .writeListen ∧ execWriteDataByte b s = .next t) ∨
    (s.phase = .writeCrc ∧ s.wcrcIdx = 0 ∧
      t = { s with wcrcOk := s.wcrcOkAfter (crcLow s.crc16) b, wcrcIdx := 1 }) ∨
    (s.phase = .writeCrc ∧ s.wcrcIdx ≠ 0 ∧
      t = queue (.dataResponse (s.wcrcOkAfter (crcHigh s.crc16) b)) .idle
        { s with wcrcOk := s.wcrcOkAfter (crcHigh s.crc16) b, wcrcIdx := 0 }) ∨
    (s.phase.isTx = true ∧ b = fillerByte ∧ t = s) ∨
    (s.phase.isTx = true ∧ b ≠ fillerByte ∧ t = fullReset s) := by
  unfold accept decodeByte at h
  cases hp : s.phase <;> simp only [hp] at h
  case boot | spi | spiAcmd | idle | idleAcmd => exact .inl ⟨rfl, h⟩
  case writeStbt =>
    split at h
    · next hb => cases h; exact .inr (.inl ⟨rfl, hb, rfl⟩)
    · next hb => cases h; exact .inr (.inr (.inl ⟨rfl, hb, rfl⟩))
  case writeListen => exact .inr (.inr (.inr (.inl ⟨rfl, h⟩)))
  case writeCrc =>
    split at h
    · next hi => cases h; exact .inr (.inr (.inr (.inr (.inl ⟨rfl, hi, by rw [← hp]⟩))))
    · next hi => cases h; exact .inr (.inr (.inr (.inr (.inr (.inl ⟨rfl, hi, rfl⟩)))))
  case cmdResponse | readBlock =>
    split at h
    · next hb => cases h; exact .inr (.inr (.inr (.inr (.inr (.inr (.inl ⟨rfl, hb, rfl⟩))))))
    · next hb => cases h; exact .inr (.inr (.inr (.inr (.inr (.inr (.inr ⟨rfl, hb, rfl⟩))))))

/-! ### The exchange and the step -/

/-- All a MOSI byte does: nothing while deselected, Produce and then Accept while selected. -/
theorem execMosiByte_cases {s t : State} {b : Byte} (h : execMosiByte b s = .next t) :
    (s.csSel = false ∧ t = s) ∨
    (s.csSel = true ∧ ∃ out u, produce s = .ok (out, u) ∧ accept b (emitMiso out u) = .next t) := by
  cases hcs : s.csSel with
  | false =>
    rw [execMosiByte_deselected b hcs] at h
    cases h
    exact .inl ⟨rfl, rfl⟩
  | true =>
    cases hp : produce s with
    | error r => simp [execMosiByte, hcs, hp] at h
    | ok p => exact .inr ⟨rfl, p.1, p.2, rfl, by rwa [execMosiByte_selected hcs hp] at h⟩

/-- All a step does: it waits, or runs the next event with that event taken. -/
theorem step_cases {s t : State} (h : step s = .next t) :
    (s.inputs = [] ∧ t = s) ∨
    (∃ level rest, s.inputs = .cs level :: rest ∧ t = { s with inputs := rest, csSel := decide (level = 0) }) ∨
    (∃ rest, s.inputs = .reset :: rest ∧ t = fullReset { s with inputs := rest }) ∨
    (∃ b rest, s.inputs = .mosi b :: rest ∧ execMosiByte b { s with inputs := rest } = .next t) := by
  cases hi : s.inputs with
  | nil =>
    rw [step_nil hi] at h
    cases h
    exact .inl ⟨rfl, rfl⟩
  | cons e rest =>
    rw [step_cons hi] at h
    cases e with
    | cs level => cases h; exact .inr (.inl ⟨level, rest, rfl, rfl⟩)
    | reset => cases h; exact .inr (.inr (.inl ⟨rest, rfl, rfl⟩))
    | mosi b => exact .inr (.inr (.inr ⟨b, rest, rfl, h⟩))

end Sys2Proof.Machine
end

section
/-! PROOFS. The configuration and chip-select: only a chip-select event writes either, and it writes chip-select. -/

namespace Sys2Proof

open Sys2Proof.Machine

/-- `t` has the configuration and the chip-select of `s`. -/
def SameConfigAndSelect (s t : State) : Prop := t.cfg = s.cfg ∧ t.csSel = s.csSel

theorem startRead_sameConfigAndSelect (arg : BitVec 32) (multi : Bool) (s : State) :
    SameConfigAndSelect s (startRead arg multi s) := by
  cases hr : inRange s.cfg arg with
  | true => rw [startRead_inRange multi hr]; exact ⟨rfl, rfl⟩
  | false => rw [startRead_outOfRange multi hr]; exact ⟨rfl, rfl⟩

theorem startWrite_sameConfigAndSelect (arg : BitVec 32) (multi : Bool) (s : State) :
    SameConfigAndSelect s (startWrite arg multi s) := by
  cases hr : inRange s.cfg arg with
  | true => rw [startWrite_inRange multi hr]; exact ⟨rfl, rfl⟩
  | false => rw [startWrite_outOfRange multi hr]; exact ⟨rfl, rfl⟩

theorem dispatchFrame_sameConfigAndSelect {s t : State} (h : dispatchFrame s = .next t) :
    SameConfigAndSelect s t := by
  obtain ⟨i, -, hrun⟩ := dispatchFrame_eq_next h
  obtain rfl | ⟨r, next, -, rfl⟩ | ⟨arg, multi, rfl⟩ | ⟨arg, multi, rfl⟩ := runCommand_cases hrun
  · exact ⟨rfl, rfl⟩
  · exact ⟨rfl, rfl⟩
  · exact startRead_sameConfigAndSelect arg multi s
  · exact startWrite_sameConfigAndSelect arg multi s

theorem execFrameByte_sameConfigAndSelect {s t : State} {b : Byte} (h : execFrameByte b s = .next t) :
    SameConfigAndSelect s t := by
  obtain ⟨-, -, rfl⟩ | ⟨n, -, rfl⟩ | ⟨-, u, hu, rfl⟩ := execFrameByte_cases h
  · exact ⟨rfl, rfl⟩
  · exact ⟨rfl, rfl⟩
  · obtain ⟨hcfg, hcs⟩ := dispatchFrame_sameConfigAndSelect hu
    exact ⟨hcfg, hcs⟩

theorem accept_sameConfigAndSelect {s t : State} {b : Byte} (h : accept b s = .next t) :
    SameConfigAndSelect s t := by
  obtain ⟨-, h⟩ | ⟨-, -, rfl⟩ | ⟨-, -, rfl⟩ | ⟨-, h⟩ | ⟨-, -, rfl⟩ | ⟨-, -, rfl⟩ | ⟨-, -, rfl⟩ | ⟨-, -, rfl⟩ :=
    accept_cases h
  case inl => exact execFrameByte_sameConfigAndSelect h
  case inr.inr.inr.inl =>
    obtain ⟨-, ⟨-, rfl⟩ | ⟨n, -, rfl⟩⟩ := execWriteDataByte_cases h <;> exact ⟨rfl, rfl⟩
  all_goals exact ⟨rfl, rfl⟩

theorem execMosiByte_sameConfigAndSelect {s t : State} {b : Byte} (h : execMosiByte b s = .next t) :
    SameConfigAndSelect s t := by
  obtain ⟨-, rfl⟩ | ⟨-, out, u, hu, ht⟩ := execMosiByte_cases h
  · exact ⟨rfl, rfl⟩
  · have hp : SameConfigAndSelect s u := by rw [produce_frame hu]; exact ⟨rfl, rfl⟩
    obtain ⟨hcfg, hcs⟩ := accept_sameConfigAndSelect ht
    exact ⟨hcfg.trans hp.1, hcs.trans hp.2⟩

/-- Settles O45, by the cases of a step: only the chip-select event's case writes chip-select. -/
theorem configAndChipSelectOwners : Obligations.ConfigAndChipSelectOwners := by
  intro s t h
  obtain ⟨-, rfl⟩ | ⟨level, rest, hi, rfl⟩ | ⟨rest, -, rfl⟩ | ⟨b, rest, -, hm⟩ := step_cases h
  · exact ⟨rfl, fun hne => absurd rfl hne⟩
  · exact ⟨rfl, fun _ => ⟨level, rest, hi⟩⟩
  · exact ⟨rfl, fun hne => absurd rfl hne⟩
  · obtain ⟨hcfg, hcs⟩ := execMosiByte_sameConfigAndSelect hm
    exact ⟨hcfg, fun hne => absurd hcs hne⟩

end Sys2Proof
end

section
/-! PROOFS. The invariant of 10_state.md R35: it holds at reset, and Produce, Accept and the port events keep it. -/

namespace Sys2Proof

open Sys2Proof.Machine

/-! ### At reset -/

/-- Whatever number is chosen, the capacity is from 512 to 2^32. -/
theorem params_valid : Config.params.valid := by
  have hlt : Config.capacityChoice % (2 ^ 32 - Config.blockLen + 1) < 2 ^ 32 - Config.blockLen + 1 :=
    Nat.mod_lt _ (Nat.succ_pos _)
  have hcap : Config.params.capacity =
      Config.blockLen + Config.capacityChoice % (2 ^ 32 - Config.blockLen + 1) := rfl
  have hlen : Config.blockLen = 512 := rfl
  simp only [Config.valid, hcap, hlen] at hlt ⊢
  omega

/-- An engine created with a valid configuration meets the invariant. -/
theorem inv_create {c : Config} (hc : c.valid) : Inv (State.create c) where
  cmdLen_phase := fun _ => rfl
  response_iff := by simp [State.create]
  respIdx_lt := by simp [State.create]
  blkCount_phase := by simp [State.create]
  blockFits := by simp [State.create]
  blockAhead := by simp [State.create]
  wcrcIdx_phase := by simp [State.create]
  afterSend_ne := by simp [State.create]
  head_le := Nat.zero_le _
  cfg_valid := hc
  store_wf := wf_nil _
  store_lt := by simp [State.create]

/-- Settles O39: the engine is created with a valid configuration, whatever the open parameters are. -/
theorem invAtReset : Obligations.InvAtReset := inv_create params_valid

/-! ### The ports, the reset and a queued response -/

/-- No clause of the invariant reads chip-select or the ports. -/
theorem Inv.set_ports {s : State} (h : Inv s) (cs : Bool) (is : List PortEvent) (ms : List Byte) :
    Inv { s with csSel := cs, inputs := is, miso := ms } := { h with }

theorem Inv.after_fullReset {s : State} (h : Inv s) : Inv (fullReset s) := { h with
  cmdLen_phase := fun _ => rfl
  response_iff := by simp
  respIdx_lt := by simp
  blkCount_phase := by simp
  blockFits := by simp
  blockAhead := by simp
  wcrcIdx_phase := by simp
  afterSend_ne := by simp
  head_le := Nat.zero_le _ }

theorem Phase.ne_of_isCommand {p q : Phase} (hp : p.isCommand = true) (hq : q.isCommand = false) : p ≠ q := by
  rintro rfl
  simp [hp] at hq

/-- No frame, block or write-CRC pair is under way, and the clauses that hold in every phase do: all that a queued
response needs of the state it is queued on. -/
structure Quiet (s : State) : Prop where
  cmdLen : s.cmdLen = 0
  blkCount : s.blkCount = 0
  wcrcIdx : s.wcrcIdx = 0
  head_le : s.head ≤ s.cfg.capacity
  cfg_valid : s.cfg.valid
  store_wf : Memory.wf s.cfg.initialImage s.store = true
  store_lt : ∀ c ∈ s.store, c.1 < s.cfg.capacity

/-- Queue on a quiet state gives the invariant, if the phase to return to is none of the three that
10_state.md R35 item 6 excludes and the block it announces fits. -/
theorem Quiet.inv_queue {s : State} (h : Quiet s) (r : Response) {next : Phase}
    (hnext : next ≠ .cmdResponse ∧ next ≠ .writeListen ∧ next ≠ .writeCrc)
    (hfit : next = .readBlock ∨ next = .writeStbt → s.head + Config.blockLen ≤ s.cfg.capacity) :
    Inv (queue r next s) := { h with
  cmdLen_phase := by simp [h.cmdLen]
  response_iff := by simpa using Nat.lt_of_succ_le r.bytes_length.1
  respIdx_lt := fun _ => Nat.lt_of_succ_le r.bytes_length.1
  blkCount_phase := by simp [h.blkCount]
  blockFits := by simp
  blockAhead := by simpa using hfit
  wcrcIdx_phase := by simp [h.wcrcIdx]
  afterSend_ne := hnext }

/-- A response that returns to a command phase announces no block. -/
theorem Quiet.inv_queue_command {s : State} (h : Quiet s) (r : Response) {next : Phase}
    (hnext : next.isCommand = true) : Inv (queue r next s) := by
  have hne {p : Phase} (hp : p.isCommand = false) : next ≠ p := Phase.ne_of_isCommand hnext hp
  exact h.inv_queue r ⟨hne rfl, hne rfl, hne rfl⟩ fun e => (e.elim (hne rfl) (hne rfl)).elim

theorem Inv.blkCount_eq_zero {s : State} (h : Inv s) (hr : s.phase ≠ .readBlock) (hw : s.phase ≠ .writeListen) :
    s.blkCount = 0 := by
  by_contra hne
  have hpos : 0 < s.blkCount.val := Fin.pos_iff_ne_zero.2 hne
  exact (h.blkCount_phase hpos).elim hr hw

theorem Inv.cmdLen_eq_zero {s : State} (h : Inv s) (hp : s.phase.isCommand = false) : s.cmdLen = 0 := by
  by_contra hne
  have hcmd := h.cmdLen_phase (Fin.pos_iff_ne_zero.2 hne)
  simp [hp] at hcmd

theorem Inv.wcrcIdx_eq_zero {s : State} (h : Inv s) (hp : s.phase ≠ .writeCrc) : s.wcrcIdx = 0 := by
  have h1 : s.wcrcIdx ≠ 1 := fun h1 => hp (h.wcrcIdx_phase h1)
  omega

/-- In a command phase everything but a frame is at rest; a frame's registers are its own. -/
theorem Inv.quiet_of_isCommand {s : State} (h : Inv s) (hp : s.phase.isCommand = true) (buf : Vector Byte 6) :
    Quiet { s with cmdBuf := buf, cmdLen := 0 } := { h with
  cmdLen := rfl
  blkCount := h.blkCount_eq_zero (Phase.ne_of_isCommand hp rfl) (Phase.ne_of_isCommand hp rfl)
  wcrcIdx := h.wcrcIdx_eq_zero (Phase.ne_of_isCommand hp rfl) }

/-! ### Produce -/

/-- The last queued byte makes the announced phase the current one: `blockAhead` becomes `blockFits` with no byte done. -/
theorem Inv.after_produceResponse {s t : State} {out : Byte} (h : Inv s) (hp : s.phase = .cmdResponse)
    (ht : produceResponse s = .ok (out, t)) : Inv t := by
  have hcmd : s.cmdLen = 0 := h.cmdLen_eq_zero (by rw [hp]; rfl)
  have hblk : s.blkCount = 0 := h.blkCount_eq_zero (by simp [hp]) (by simp [hp])
  have hcrc : s.wcrcIdx = 0 := h.wcrcIdx_eq_zero (by simp [hp])
  obtain ⟨hnr, hnl, -⟩ := h.afterSend_ne
  obtain ⟨-, -, ⟨-, rfl⟩ | ⟨n, hn, hlt, rfl⟩⟩ := produceResponse_cases ht
  · exact { h with
      cmdLen_phase := by simp [hcmd]
      response_iff := by simp [hnr]
      respIdx_lt := fun e => absurd e hnr
      blkCount_phase := by simp [hblk]
      blockFits := fun e => by
        have hahead := h.blockAhead (.inr ⟨hp, .inl (e.resolve_right hnl)⟩)
        simpa [hblk] using hahead
      blockAhead := fun e => h.blockAhead (.inr ⟨hp, .inr (e.resolve_right fun e => hnr e.1)⟩)
      wcrcIdx_phase := by simp [hcrc] }
  · exact { h with respIdx_lt := fun _ => hn ▸ hlt }

theorem Inv.after_produceBlockByte {s t : State} {out : Byte} (h : Inv s) (hp : s.phase = .readBlock)
    (ht : produceBlockByte s = .ok (out, t)) : Inv t := by
  have hcmd : s.cmdLen = 0 := h.cmdLen_eq_zero (by rw [hp]; rfl)
  have hcrc : s.wcrcIdx = 0 := h.wcrcIdx_eq_zero (by simp [hp])
  obtain ⟨hread, hcases⟩ := produceBlockByte_cases ht
  have hhead : s.head + 1 ≤ s.cfg.capacity := (memRead_eq_some.1 hread).1
  obtain ⟨-, rfl⟩ | ⟨n, hn, rfl⟩ := hcases
  · have hquiet : Quiet { s with crc16 := fold16 s.crc16 out, head := s.head + 1, blkCount := 0 } :=
      ⟨hcmd, rfl, hcrc, hhead, h.cfg_valid, h.store_wf, h.store_lt⟩
    exact hquiet.inv_queue_command _ rfl
  · have hfits := h.blockFits (.inl hp)
    exact { h with
      blkCount_phase := fun _ => .inl hp
      blockFits := fun _ => by simp only [Config.blockLen] at hfits ⊢; omega
      blockAhead := by simp [hp]
      head_le := hhead }

theorem Inv.after_produce {s t : State} {out : Byte} (h : Inv s) (ht : produce s = .ok (out, t)) : Inv t := by
  obtain ⟨hp, ht⟩ | ⟨hp, ht⟩ | ⟨-, -, rfl⟩ | ⟨-, -, -, -, rfl⟩ := produce_cases ht
  · exact h.after_produceResponse hp ht
  · exact h.after_produceBlockByte hp ht
  · exact h
  · exact h

/-! ### Commands -/

theorem inRange_iff {c : Config} {arg : BitVec 32} :
    inRange c arg = true ↔ arg.toNat + Config.blockLen ≤ c.capacity := decide_eq_true_iff

/-- A command keeps the invariant once the frame's length is cleared. -/
theorem Inv.after_runCommand {i : Instr} {s t : State} (h : Inv s) (hp : s.phase.isCommand = true)
    (ht : runCommand i s = .next t) : Inv { t with cmdLen := 0 } := by
  have hquiet : Quiet { s with cmdLen := 0 } := h.quiet_of_isCommand hp s.cmdBuf
  obtain rfl | ⟨r, next, hn, rfl⟩ | ⟨arg, multi, rfl⟩ | ⟨arg, multi, rfl⟩ := runCommand_cases ht
  · exact (h.after_fullReset.quiet_of_isCommand rfl _).inv_queue_command .r1Idle (next := .spi) rfl
  · exact hquiet.inv_queue_command r hn
  · cases hr : inRange s.cfg arg with
    | true =>
      rw [startRead_inRange multi hr]
      have hfit := inRange_iff.1 hr
      have hstart : Quiet { s with cmdLen := 0, head := arg.toNat, multi := multi, crc16 := crc16Init, blkCount := 0 } :=
        { hquiet with blkCount := rfl, head_le := Nat.le_of_add_right_le hfit }
      exact hstart.inv_queue _ (next := .readBlock) (by decide) fun _ => hfit
    | false =>
      rw [startRead_outOfRange multi hr]
      exact hquiet.inv_queue_command .r1AddressError (next := .idle) rfl
  · cases hr : inRange s.cfg arg with
    | true =>
      rw [startWrite_inRange multi hr]
      have hfit := inRange_iff.1 hr
      have hstart : Quiet { s with cmdLen := 0, head := arg.toNat, multi := multi } :=
        { hquiet with head_le := Nat.le_of_add_right_le hfit }
      exact hstart.inv_queue _ (next := .writeStbt) (by decide) fun _ => hfit
    | false =>
      rw [startWrite_outOfRange multi hr]
      exact hquiet.inv_queue_command .r1AddressError (next := .idle) rfl

/-! ### Accept -/

theorem Inv.after_execFrameByte {s t : State} {b : Byte} (h : Inv s) (hp : s.phase.isCommand = true)
    (ht : execFrameByte b s = .next t) : Inv t := by
  obtain ⟨-, -, rfl⟩ | ⟨n, -, rfl⟩ | ⟨-, u, hu, rfl⟩ := execFrameByte_cases ht
  · exact h
  · exact { h with cmdLen_phase := fun _ => hp }
  · obtain ⟨i, -, hrun⟩ := dispatchFrame_eq_next hu
    have hfull : Inv { s with cmdBuf := s.cmdBuf.set 5 b } := { h with }
    exact hfull.after_runCommand hp hrun

theorem Inv.after_execWriteDataByte {s t : State} {b : Byte} (h : Inv s) (hp : s.phase = .writeListen)
    (ht : execWriteDataByte b s = .next t) : Inv t := by
  have hcmd : s.cmdLen = 0 := h.cmdLen_eq_zero (by rw [hp]; rfl)
  have hfits := h.blockFits (.inr hp)
  obtain ⟨hlt, ⟨-, rfl⟩ | ⟨n, hn, rfl⟩⟩ := execWriteDataByte_cases ht
  · exact { h with
      cmdLen_phase := by simp [hcmd]
      response_iff := by simpa [hp] using h.response_iff
      respIdx_lt := by simp
      blkCount_phase := by simp
      blockFits := by simp
      blockAhead := by simp
      wcrcIdx_phase := by simp
      head_le := hlt
      store_wf := wf_write s.head b h.store_wf
      store_lt := write_lt h.store_lt hlt }
  · exact { h with
      blkCount_phase := fun _ => .inr hp
      blockFits := fun _ => by simp only [Config.blockLen] at hfits ⊢; omega
      blockAhead := by simp [hp]
      head_le := hlt
      store_wf := wf_write s.head b h.store_wf
      store_lt := write_lt h.store_lt hlt }

/-- The start-block token: the announced block is begun, with no byte done. -/
theorem Inv.after_startBlock {s : State} (h : Inv s) (hp : s.phase = .writeStbt) :
    Inv { s with phase := .writeListen, crc16 := crc16Init, blkCount := 0 } := { h with
  cmdLen_phase := by simp [h.cmdLen_eq_zero (by rw [hp]; rfl)]
  response_iff := by simpa [hp] using h.response_iff
  respIdx_lt := by simp
  blkCount_phase := by simp
  blockFits := fun _ => h.blockAhead (.inl hp)
  blockAhead := by simp
  wcrcIdx_phase := by simp [h.wcrcIdx_eq_zero (by simp [hp])] }

/-- The data-response token after the second write-CRC byte. -/
theorem Inv.after_answerWrite {s : State} (h : Inv s) (hp : s.phase = .writeCrc) (ok : Bool) :
    Inv (queue (.dataResponse ok) .idle { s with wcrcOk := ok, wcrcIdx := 0 }) := by
  have hquiet : Quiet { s with wcrcOk := ok, wcrcIdx := 0 } := { h with
    cmdLen := h.cmdLen_eq_zero (by rw [hp]; rfl)
    blkCount := h.blkCount_eq_zero (by simp [hp]) (by simp [hp])
    wcrcIdx := rfl }
  exact hquiet.inv_queue_command _ rfl

theorem Inv.after_accept {s t : State} {b : Byte} (h : Inv s) (ht : accept b s = .next t) : Inv t := by
  obtain ⟨hp, ht⟩ | ⟨hp, -, rfl⟩ | ⟨-, -, rfl⟩ | ⟨hp, ht⟩ | ⟨hp, -, rfl⟩ | ⟨hp, -, rfl⟩ | ⟨-, -, rfl⟩ | ⟨-, -, rfl⟩ :=
    accept_cases ht
  · exact h.after_execFrameByte hp ht
  · exact h.after_startBlock hp
  · exact h
  · exact h.after_execWriteDataByte hp ht
  · exact { h with wcrcIdx_phase := fun _ => hp }
  · exact h.after_answerWrite hp _
  · exact h
  · exact h.after_fullReset

/-! ### The step -/

theorem Inv.after_execMosiByte {s t : State} {b : Byte} (h : Inv s) (ht : execMosiByte b s = .next t) : Inv t := by
  obtain ⟨-, rfl⟩ | ⟨-, out, u, hu, ht⟩ := execMosiByte_cases ht
  · exact h
  · exact Inv.after_accept ((h.after_produce hu).set_ports u.csSel u.inputs (u.miso ++ [out])) ht

/-- Settles O40, by the cases of a step: an exchange keeps the invariant through Produce and then Accept. -/
theorem invKeptByStep : Obligations.InvKeptByStep := by
  intro s t h ht
  obtain ⟨-, rfl⟩ | ⟨level, rest, -, rfl⟩ | ⟨rest, -, rfl⟩ | ⟨b, rest, -, hm⟩ := step_cases ht
  · exact h
  · exact h.set_ports (decide (level = 0)) rest s.miso
  · exact (h.set_ports s.csSel rest s.miso).after_fullReset
  · exact (h.set_ports s.csSel rest s.miso).after_execMosiByte hm

end Sys2Proof
end

section
/-! PROOFS. The store: what a read gives after a write, and the one row that writes, a data byte of a block write. -/

namespace Sys2Proof

open Sys2Proof.Machine

/-! ### A read after a write -/

/-- What every address reads as after a write, on a store in canonical form. -/
theorem memRead_memWrite {s t : State} {a : Nat} {v : Byte} (hwf : Memory.wf s.cfg.initialImage s.store = true)
    (h : s.memWrite a v = some t) (x : Nat) : t.memRead x = if x = a then some v else s.memRead x := by
  obtain ⟨ha, rfl⟩ := memWrite_spec h
  simp only [State.memRead, read_write a v hwf]
  by_cases hx : x = a
  · simp [hx, ha]
  · simp [hx]

/-- Settles O43, by the law of a read after a write; from CAPACITY on both accesses give nothing by definition. -/
theorem storeReadAfterWrite : Obligations.StoreReadAfterWrite := by
  intro s a v hwf
  refine ⟨fun ha => ?_, fun ha => ⟨memWrite_of_le v ha, memRead_of_le ha⟩⟩
  have hw := memWrite_of_lt v ha
  have hread := memRead_memWrite hwf hw
  exact ⟨_, hw, (hread a).trans (if_pos rfl), fun b hb => (hread b).trans (if_neg hb), rfl⟩

/-! ### Frame bytes -/

/-- No command writes the store: the block commands move the cursor only (20_memory.md R51). -/
theorem dispatchFrame_store {s t : State} (h : dispatchFrame s = .next t) : t.store = s.store := by
  obtain ⟨i, -, hrun⟩ := dispatchFrame_eq_next h
  obtain rfl | ⟨r, next, -, rfl⟩ | ⟨arg, multi, rfl⟩ | ⟨arg, multi, rfl⟩ := runCommand_cases hrun
  · rfl
  · rfl
  · cases hr : inRange s.cfg arg with
    | true => rw [startRead_inRange multi hr]; rfl
    | false => rw [startRead_outOfRange multi hr]; rfl
  · cases hr : inRange s.cfg arg with
    | true => rw [startWrite_inRange multi hr]; rfl
    | false => rw [startWrite_outOfRange multi hr]; rfl

theorem execFrameByte_memRead {s t : State} {b : Byte} (h : execFrameByte b s = .next t) (a : Nat) :
    t.memRead a = s.memRead a := by
  refine memRead_congr (execFrameByte_sameConfigAndSelect h).1 ?_ a
  obtain ⟨-, -, rfl⟩ | ⟨n, -, rfl⟩ | ⟨-, u, hu, rfl⟩ := execFrameByte_cases h
  · rfl
  · rfl
  · have hstore := dispatchFrame_store hu
    exact hstore

/-! ### The exchange -/

/-- A data byte writes itself at the cursor; its other effects are on registers (40_byte_engine.md R104). -/
theorem execWriteDataByte_memRead {s t : State} {b : Byte} (hwf : Memory.wf s.cfg.initialImage s.store = true)
    (h : execWriteDataByte b s = .next t) (a : Nat) :
    t.memRead a = if a = s.head then some b else s.memRead a := by
  obtain ⟨hlt, ht⟩ := execWriteDataByte_cases h
  rw [← memRead_memWrite hwf (memWrite_of_lt b hlt)]
  obtain ⟨-, rfl⟩ | ⟨n, -, rfl⟩ := ht <;> rfl

/-- Accept writes the store in WRITE_LISTEN only, the byte accepted at the cursor. -/
theorem accept_memRead_cases {s t : State} {b : Byte} (hwf : Memory.wf s.cfg.initialImage s.store = true)
    (h : accept b s = .next t) :
    (∀ a, t.memRead a = s.memRead a) ∨
    (s.phase = .writeListen ∧ ∀ a, t.memRead a = if a = s.head then some b else s.memRead a) := by
  obtain ⟨-, h⟩ | ⟨-, -, rfl⟩ | ⟨-, -, rfl⟩ | ⟨hp, h⟩ | ⟨-, -, rfl⟩ | ⟨-, -, rfl⟩ | ⟨-, -, rfl⟩ | ⟨-, -, rfl⟩ :=
    accept_cases h
  case inl => exact .inl (execFrameByte_memRead h)
  case inr.inr.inr.inl => exact .inr ⟨hp, execWriteDataByte_memRead hwf h⟩
  all_goals exact .inl fun _ => rfl

/-- Produce never enters WRITE_LISTEN: the phase a response returns to is not WRITE_LISTEN (10_state.md R35 item 6).
So where it leaves that phase, it did nothing. -/
theorem Inv.produce_eq_self {s t : State} {out : Byte} (h : Inv s) (ht : produce s = .ok (out, t))
    (hp : t.phase = .writeListen) : t = s := by
  obtain ⟨hs, ht⟩ | ⟨hs, ht⟩ | ⟨-, -, rfl⟩ | ⟨-, -, -, -, rfl⟩ := produce_cases ht
  · obtain ⟨-, hnext, -⟩ := h.afterSend_ne
    obtain ⟨-, -, ⟨-, rfl⟩ | ⟨n, -, -, rfl⟩⟩ := produceResponse_cases ht
    · exact absurd hp hnext
    · simp [hs] at hp
  · obtain ⟨-, ⟨-, rfl⟩ | ⟨n, -, rfl⟩⟩ := produceBlockByte_cases ht
    · simp at hp
    · simp [hs] at hp
  · rfl
  · rfl

/-- A MOSI byte writes the store only while selected in WRITE_LISTEN, and then at the cursor. -/
theorem Inv.execMosiByte_memRead_cases {s t : State} {b : Byte} (h : Inv s) (ht : execMosiByte b s = .next t) :
    (∀ a, t.memRead a = s.memRead a) ∨
    (s.csSel = true ∧ s.phase = .writeListen ∧
      ∀ a, t.memRead a = if a = s.head then some b else s.memRead a) := by
  obtain ⟨-, rfl⟩ | ⟨hcs, out, u, hu, ht⟩ := execMosiByte_cases ht
  · exact .inl fun _ => rfl
  · obtain hkept | ⟨hp, hwritten⟩ := accept_memRead_cases (s := emitMiso out u) (h.after_produce hu).store_wf ht
    · refine .inl fun a => (hkept a).trans ?_
      rw [produce_frame hu]
      rfl
    · obtain rfl := h.produce_eq_self hu hp
      exact .inr ⟨hcs, hp, hwritten⟩

/-- Settles O44, by the cases of a step: only a MOSI byte's case writes the store, and it keeps every address but the
cursor. -/
theorem onlyDataBytesWriteTheStore : Obligations.OnlyDataBytesWriteTheStore := by
  intro s t h ht a hne
  obtain ⟨-, rfl⟩ | ⟨level, rest, -, rfl⟩ | ⟨rest, -, rfl⟩ | ⟨b, rest, hi, hm⟩ := step_cases ht
  · exact absurd rfl hne
  · exact absurd rfl hne
  · exact absurd rfl hne
  · obtain hkept | ⟨hcs, hp, hwritten⟩ := (h.set_ports s.csSel rest s.miso).execMosiByte_memRead_cases hm
    · exact absurd (hkept a) hne
    · have ha : a = s.head := by
        by_contra hother
        exact hne ((hwritten a).trans (if_neg hother))
      exact ⟨ha, hcs, hp, b, rest, hi, (hwritten a).trans (if_pos ha)⟩

end Sys2Proof
end

section
/-! PROOFS. The decoder row by row: what it gives in each phase, and that it and the encoder invert each other
(30_encoding.md R70 to R82, 41_commands.md R130). -/

namespace Sys2Proof

/-! ### The command map -/

/-- Outside SPI_ACMD the index 0 always resets. -/
theorem isCmd0_iff_of_ne {c : DecodeCtx} (hp : c.phase ≠ .spiAcmd) (idx : BitVec 6) :
    isCmd0 c idx = true ↔ idx = 0 := by
  simp [isCmd0, hp]

/-- In SPI_ACMD the index 0 resets under CMD0_IN_SPI_ACMD = RESET only (decision D3). -/
theorem isCmd0_iff_of_spiAcmd {c : DecodeCtx} (hp : c.phase = .spiAcmd) (idx : BitVec 6) :
    isCmd0 c idx = true ↔ idx = 0 ∧ c.cmd0InSpiAcmd = .reset := by
  cases hm : c.cmd0InSpiAcmd <;> simp [isCmd0, hp, hm]

theorem decodeFrame_boot {c : DecodeCtx} (hp : c.phase = .boot) (w : FrameWord) :
    decodeFrame c w =
      .ok (if frameIndex w = 0 then .cmd0 (frameFields w) else .illegalBoot (frameIndex w) (frameFields w)) := by
  simp only [decodeFrame, hp, isCmd0_iff_of_ne (c := c) (by simp [hp])]

theorem decodeFrame_spi {c : DecodeCtx} (hp : c.phase = .spi) (w : FrameWord) :
    decodeFrame c w =
      .ok (if frameIndex w = 0 then .cmd0 (frameFields w)
        else if frameIndex w = 55 then .cmd55 (frameFields w)
        else .illegalSpi (frameIndex w) (frameFields w)) := by
  simp only [decodeFrame, hp, isCmd0_iff_of_ne (c := c) (by simp [hp])]

theorem decodeFrame_spiAcmd {c : DecodeCtx} (hp : c.phase = .spiAcmd) (w : FrameWord) :
    decodeFrame c w =
      .ok (if frameIndex w = 0 ∧ c.cmd0InSpiAcmd = .reset then .cmd0 (frameFields w)
        else if frameIndex w = 41 then .acmd41 (frameFields w)
        else .illegalSpiAcmd (frameIndex w) (frameFields w)) := by
  simp only [decodeFrame, hp, isCmd0_iff_of_spiAcmd hp]

theorem decodeFrame_idleAcmd {c : DecodeCtx} (hp : c.phase = .idleAcmd) (w : FrameWord) :
    decodeFrame c w =
      .ok (if frameIndex w = 0 then .cmd0 (frameFields w)
        else .illegalIdleAcmd (frameIndex w) (frameFields w)) := by
  simp only [decodeFrame, hp, isCmd0_iff_of_ne (c := c) (by simp [hp])]

theorem decodeFrame_idle {c : DecodeCtx} (hp : c.phase = .idle) (w : FrameWord) :
    decodeFrame c w =
      .ok (if frameIndex w = 0 then .cmd0 (frameFields w) else decodeIdle (frameIndex w) (frameFields w)) := by
  simp only [decodeFrame, hp, isCmd0_iff_of_ne (c := c) (by simp [hp])]

theorem decodeFrame_of_not_isCommand {c : DecodeCtx} (hp : c.phase.isCommand = false) (w : FrameWord) :
    decodeFrame c w = .error (.notACommandPhase c.phase) := by
  unfold decodeFrame
  cases hq : c.phase
  case boot | spi | spiAcmd | idle | idleAcmd => simp [hq, Phase.isCommand] at hp
  all_goals rfl

/-- Index 0 is CMD0 in every context of CMD0's row. -/
theorem decodeFrame_cmd0 {c : DecodeCtx} {w : FrameWord} (hp : c.phase.isCommand = true)
    (hm : c.phase = .spiAcmd → c.cmd0InSpiAcmd ≠ .illegal) (h0 : frameIndex w = 0) :
    decodeFrame c w = .ok (.cmd0 (frameFields w)) := by
  have hcmd : isCmd0 c (frameIndex w) = true := by
    simpa [isCmd0, h0, imp_iff_not_or] using hm
  unfold decodeFrame
  cases hq : c.phase
  case boot | spi | spiAcmd | idle | idleAcmd => simp [hcmd]
  all_goals simp [hq, Phase.isCommand] at hp

/-- An index without a row of its own in IDLE. -/
theorem decodeIdle_illegal {idx : BitVec 6} (f : FrameFields)
    (h : idx ∉ ([0, 13, 17, 18, 24, 25, 55, 58] : List (BitVec 6))) : decodeIdle idx f = .illegalIdle idx f := by
  simp only [List.mem_cons, List.not_mem_nil, or_false, not_or] at h
  simp only [decodeIdle, h, if_false]

/-- Settles O4: the clauses are the rows of the decoder, in IDLE one index at a time. -/
theorem commandMapOfEveryPhase : Obligations.CommandMapOfEveryPhase := by
  intro c w
  refine ⟨fun hp => decodeFrame_boot hp w, fun hp => decodeFrame_spi hp w, fun hp => decodeFrame_spiAcmd hp w,
    fun hp => decodeFrame_idleAcmd hp w, fun hp => ?_, fun hp => decodeFrame_of_not_isCommand hp w⟩
  rw [decodeFrame_idle hp]
  refine ⟨?_, ?_, ?_, ?_, ?_, ?_, ?_, ?_, fun hidx => ?_⟩
  case refine_9 =>
    rw [if_neg fun h0 => hidx (by simp [h0]), decodeIdle_illegal _ hidx]
  all_goals intro hidx; rw [hidx]; rfl

/-! ### Decoding what was encoded -/

theorem decodeByte_frameByte {c : DecodeCtx} (hp : c.phase.isCommand = true) (b : Byte) :
    decodeByte c b = .frameByte b := by
  unfold decodeByte
  cases hq : c.phase
  case boot | spi | spiAcmd | idle | idleAcmd => rfl
  all_goals simp [hq, Phase.isCommand] at hp

theorem decodeByte_tx {c : DecodeCtx} (hp : c.phase.isTx = true) (b : Byte) :
    decodeByte c b = if b = fillerByte then .txFiller else .txViolation b := by
  unfold decodeByte
  cases hq : c.phase
  case cmdResponse | readBlock => rfl
  all_goals simp [hq, Phase.isTx] at hp

/-- Settles O1, row by row of the table: the row's condition decides the decoder's tests. -/
theorem decodeOfEncode : Obligations.DecodeOfEncode := by
  intro c i hwf hphase
  cases i <;> simp only [Instr.wellFormed, Instr.inPhase, Bool.and_eq_true, Bool.or_eq_true, Bool.not_eq_true',
    Bool.and_eq_false_imp, beq_iff_eq, bne_iff_ne, beq_eq_false_iff_ne] at hwf hphase
  all_goals dsimp only [encode, decode]
  case cmd0 f =>
    obtain ⟨hcmd, hm⟩ := hphase
    rw [decodeFrame_cmd0 hcmd hm (frameIndex_frameOf 0 f), frameFields_frameOf]
  case illegalBoot idx f =>
    obtain ⟨h0, -⟩ := hwf
    rw [decodeFrame_boot hphase, frameIndex_frameOf, frameFields_frameOf, if_neg h0]
  case cmd55 f => simp [decodeFrame_spi hphase]
  case illegalSpi idx f =>
    obtain ⟨hidx, -⟩ := hwf
    obtain ⟨h0, h55⟩ : idx ≠ 0 ∧ idx ≠ 55 := by simpa using hidx
    rw [decodeFrame_spi hphase, frameIndex_frameOf, frameFields_frameOf, if_neg h0, if_neg h55]
  case acmd41 f => simp [decodeFrame_spiAcmd hphase]
  case illegalSpiAcmd idx f =>
    obtain ⟨⟨h41, h0⟩, -⟩ := hwf
    have hreset : ¬(idx = 0 ∧ c.cmd0InSpiAcmd = .reset) := by
      rintro ⟨hzero, hmode⟩
      simp [hzero, hmode] at h0
    rw [decodeFrame_spiAcmd hphase, frameIndex_frameOf, frameFields_frameOf, if_neg hreset, if_neg h41]
  case illegalIdleAcmd idx f =>
    obtain ⟨h0, -⟩ := hwf
    rw [decodeFrame_idleAcmd hphase, frameIndex_frameOf, frameFields_frameOf, if_neg h0]
  case cmd17 f | cmd18 f | cmd24 f | cmd25 f | cmd13 f | cmd55Idle f | cmd58 f =>
    simp [decodeFrame_idle hphase, decodeIdle]
  case illegalIdle idx f =>
    obtain ⟨hidx, -⟩ := hwf
    have hmem : idx ∉ ([0, 13, 17, 18, 24, 25, 55, 58] : List (BitVec 6)) := by simpa using hidx
    have h0 : idx ≠ 0 := fun h0 => hmem (by simp [h0])
    rw [decodeFrame_idle hphase, frameIndex_frameOf, frameFields_frameOf, if_neg h0, decodeIdle_illegal f hmem]
  case frameByte b => rw [decodeByte_frameByte hphase]
  case startBlockToken => simp [decodeByte, hphase]
  case discardedByte b =>
    have hb : b ≠ startToken := hwf
    simp [decodeByte, hphase, hb]
  case writeDataByte b => simp [decodeByte, hphase]
  case writeCrcByte0 b => simp [decodeByte, hphase]
  case writeCrcByte1 b => simp [decodeByte, hphase]
  case txFiller => simp [decodeByte_tx hphase]
  case txViolation b =>
    have hb : b ≠ fillerByte := hwf
    simp [decodeByte_tx hphase, hb]
  case csEvent level => rfl
  case mosiByte b => rfl
  case resetEvent => rfl

/-! ### Encoding what was decoded -/

/-- The frame of a row of IDLE is the frame it was decoded from. -/
theorem encode_decodeIdle (idx : BitVec 6) (f : FrameFields) : encode (decodeIdle idx f) = .frame (frameOf idx f) := by
  unfold decodeIdle
  repeat' split
  case isFalse => rfl
  all_goals subst idx; rfl

theorem decodeIdle_inPhase {c : DecodeCtx} (hp : c.phase = .idle) (idx : BitVec 6) (f : FrameFields) :
    (decodeIdle idx f).inPhase c = true := by
  unfold decodeIdle
  repeat' split
  all_goals simp [Instr.inPhase, hp]

theorem decodeIdle_wellFormed (m : Cmd0InSpiAcmd) {idx : BitVec 6} {f : FrameFields} (h0 : idx ≠ 0)
    (hs : sendable idx f = true) : (decodeIdle idx f).wellFormed m = true := by
  unfold decodeIdle
  repeat' split
  case isFalse => simp_all [Instr.wellFormed]
  all_goals rfl

/-- What a decoded frame is: the word's own row, in a phase of that row, and well-formed if it can be sent. -/
structure RowOfFrame (c : DecodeCtx) (w : FrameWord) (i : Instr) : Prop where
  encode : encode i = .frame (frameOf (frameIndex w) (frameFields w))
  inPhase : i.inPhase c = true
  wellFormed : sendable (frameIndex w) (frameFields w) = true → i.wellFormed c.cmd0InSpiAcmd = true

theorem rowOfFrame_cmd0 {c : DecodeCtx} {w : FrameWord} (hp : c.phase.isCommand = true)
    (hm : c.phase = .spiAcmd → c.cmd0InSpiAcmd = .reset) (h0 : frameIndex w = 0) :
    RowOfFrame c w (.cmd0 (frameFields w)) where
  encode := by rw [h0]; rfl
  inPhase := by
    simp only [Instr.inPhase, hp, Bool.true_and, Bool.not_eq_true', Bool.and_eq_false_imp, beq_iff_eq,
      beq_eq_false_iff_ne]
    intro hs
    simp [hm hs]
  wellFormed _ := rfl

theorem rowOfFrame_decodeFrame {c : DecodeCtx} {w : FrameWord} {i : Instr} (h : decodeFrame c w = .ok i) :
    RowOfFrame c w i := by
  cases hp : c.phase
  case boot =>
    rw [decodeFrame_boot hp] at h
    split at h <;> cases h
    case isTrue h0 => exact rowOfFrame_cmd0 (by rw [hp]; rfl) (by simp [hp]) h0
    case isFalse h0 =>
      exact ⟨rfl, by simp [Instr.inPhase, hp], fun hs => by simp_all [Instr.wellFormed]⟩
  case spi =>
    rw [decodeFrame_spi hp] at h
    split at h
    case isTrue h0 => cases h; exact rowOfFrame_cmd0 (by rw [hp]; rfl) (by simp [hp]) h0
    case isFalse h0 =>
      split at h <;> cases h
      case isTrue h55 => exact ⟨by rw [h55]; rfl, by simp [Instr.inPhase, hp], fun _ => rfl⟩
      case isFalse h55 =>
        exact ⟨rfl, by simp [Instr.inPhase, hp], fun hs => by simp_all [Instr.wellFormed]⟩
  case spiAcmd =>
    rw [decodeFrame_spiAcmd hp] at h
    split at h
    case isTrue h0 => cases h; exact rowOfFrame_cmd0 (by rw [hp]; rfl) (fun _ => h0.2) h0.1
    case isFalse h0 =>
      split at h <;> cases h
      case isTrue h41 => exact ⟨by rw [h41]; rfl, by simp [Instr.inPhase, hp], fun _ => rfl⟩
      case isFalse h41 =>
        have hmode : frameIndex w ≠ 0 ∨ c.cmd0InSpiAcmd = .illegal := by
          cases hm : c.cmd0InSpiAcmd <;> simp_all
        exact ⟨rfl, by simp [Instr.inPhase, hp], fun hs => by simp_all [Instr.wellFormed]⟩
  case idleAcmd =>
    rw [decodeFrame_idleAcmd hp] at h
    split at h <;> cases h
    case isTrue h0 => exact rowOfFrame_cmd0 (by rw [hp]; rfl) (by simp [hp]) h0
    case isFalse h0 =>
      exact ⟨rfl, by simp [Instr.inPhase, hp], fun hs => by simp_all [Instr.wellFormed]⟩
  case idle =>
    rw [decodeFrame_idle hp] at h
    split at h <;> cases h
    case isTrue h0 => exact rowOfFrame_cmd0 (by rw [hp]; rfl) (by simp [hp]) h0
    case isFalse h0 =>
      exact ⟨encode_decodeIdle _ _, decodeIdle_inPhase hp _ _, decodeIdle_wellFormed _ h0⟩
  all_goals
    rw [decodeFrame_of_not_isCommand (by rw [hp]; rfl)] at h
    exact nomatch h

/-- A decoded byte is a well-formed row of the phase, whose unit is that byte. -/
theorem rowOfByte_decodeByte (c : DecodeCtx) (b : Byte) :
    encode (decodeByte c b) = .byte b ∧ (decodeByte c b).inPhase c = true ∧
      (decodeByte c b).wellFormed c.cmd0InSpiAcmd = true := by
  cases hp : c.phase
  case boot | spi | spiAcmd | idle | idleAcmd =>
    rw [decodeByte_frameByte (by rw [hp]; rfl)]
    exact ⟨rfl, by rw [Instr.inPhase, hp]; rfl, rfl⟩
  case writeStbt =>
    by_cases hb : b = startToken
    · have hrow : decodeByte c b = .startBlockToken := by simp [decodeByte, hp, hb]
      rw [hrow]
      exact ⟨by rw [hb]; rfl, by simp [Instr.inPhase, hp], rfl⟩
    · have hrow : decodeByte c b = .discardedByte b := by simp [decodeByte, hp, hb]
      rw [hrow]
      exact ⟨rfl, by simp [Instr.inPhase, hp], bne_iff_ne.2 hb⟩
  case writeListen => simp [decodeByte, hp, encode, Instr.inPhase, Instr.wellFormed]
  case writeCrc =>
    by_cases hi : c.wcrcIdx = 0
    · simp [decodeByte, hp, hi, encode, Instr.inPhase, Instr.wellFormed]
    · have h1 : c.wcrcIdx = 1 := by omega
      simp [decodeByte, hp, h1, encode, Instr.inPhase, Instr.wellFormed]
  case cmdResponse | readBlock =>
    have htx : c.phase.isTx = true := by rw [hp]; rfl
    rw [decodeByte_tx htx]
    split
    case isTrue hb => exact ⟨by rw [hb]; rfl, htx, rfl⟩
    case isFalse hb => exact ⟨rfl, htx, bne_iff_ne.2 hb⟩

/-- Settles O2: a frame through `rowOfFrame_decodeFrame`, a byte by the decoder's tests in each phase. -/
theorem encodeOfDecode : Obligations.EncodeOfDecode := by
  intro c u i h
  cases u
  case frame w =>
    obtain ⟨henc, hphase, hwf⟩ := rowOfFrame_decodeFrame h
    rw [frameOf_frameFields] at henc
    refine ⟨henc, hphase, fun hsent => hwf ?_⟩
    rw [sendable_iff, frameOf_frameFields]
    exact hsent w rfl
  case byte b =>
    cases h
    obtain ⟨henc, hphase, hwf⟩ := rowOfByte_decodeByte c b
    exact ⟨henc, hphase, fun _ => hwf⟩
  case event e => cases e <;> cases h <;> exact ⟨rfl, rfl, fun _ => rfl⟩

/-! ### Frames in a stream -/

theorem toList_six (v : Vector Byte 6) : v.toList = [v[0], v[1], v[2], v[3], v[4], v[5]] := by
  apply List.ext_getElem (by simp)
  intro k hk _
  rw [Vector.length_toList] at hk
  interval_cases k <;> rfl

/-- In a command phase six bytes, the first not filler, are read as one frame (30_encoding.md R72, R82). -/
theorem decodeStream_frame {c : DecodeCtx} {v : Vector Byte 6} (hp : c.phase.isCommand = true)
    (h0 : v[0] ≠ fillerByte) (rest : List Byte) :
    decodeStream c (v.toList ++ rest) = (decodeFrame c (frameOfBytes v)).map fun i => (i, rest) := by
  have hv : #v[v[0], v[1], v[2], v[3], v[4], v[5]] = v := Vector.toList_inj.1 (toList_six v).symm
  rw [toList_six]
  simp only [List.cons_append, List.nil_append, decodeStream, hp, h0, ne_eq, not_false_eq_true, and_self, if_true, hv]

/-- Only the index 63 can make an unsendable frame. -/
theorem sendable_of_ne {idx : BitVec 6} (f : FrameFields) (h : idx ≠ 63) : sendable idx f = true := by
  rw [sendable, beq_eq_false_iff_ne.2 h]
  rfl

/-- A well-formed command is a frame the host can send. -/
theorem encode_eq_sendable_frame {m : Cmd0InSpiAcmd} {i : Instr} (hfmt : i.format = .commandFrame48)
    (hwf : i.wellFormed m = true) : ∃ idx f, encode i = .frame (frameOf idx f) ∧ sendable idx f = true := by
  cases i
  case cmd0 f | cmd55 f | acmd41 f | cmd17 f | cmd18 f | cmd24 f | cmd25 f | cmd13 f | cmd55Idle f | cmd58 f =>
    exact ⟨_, f, rfl, sendable_of_ne f (by decide)⟩
  case illegalBoot idx f | illegalSpi idx f | illegalSpiAcmd idx f | illegalIdleAcmd idx f | illegalIdle idx f =>
    exact ⟨idx, f, rfl, (Bool.and_eq_true _ _ ▸ hwf).2⟩
  all_goals exact nomatch hfmt

/-- A command frame belongs to command phases only. -/
theorem isCommand_of_inPhase {c : DecodeCtx} {i : Instr} (hfmt : i.format = .commandFrame48)
    (hp : i.inPhase c = true) : c.phase.isCommand = true := by
  cases i
  case cmd0 f => exact (Bool.and_eq_true _ _ ▸ hp).1
  case frameByte | startBlockToken | discardedByte | writeDataByte | writeCrcByte0 | writeCrcByte1 | txFiller
      | txViolation | csEvent | mosiByte | resetEvent => exact nomatch hfmt
  all_goals rw [beq_iff_eq.1 hp]; rfl

/-- Settles O3: a well-formed frame does not begin with the filler, so its six bytes are read as one frame, and the
frame decodes by O1. -/
theorem streamDecodesSentFrame : Obligations.StreamDecodesSentFrame := by
  intro c i rest hfmt hwf hp
  obtain ⟨idx, f, henc, hsend⟩ := encode_eq_sendable_frame hfmt hwf
  have hdec := decodeOfEncode c i hwf hp
  rw [henc] at hdec ⊢
  have hframe : decodeFrame c (frameOf idx f) = .ok i := hdec
  rw [CodeUnit.bytes, decodeStream_frame (isCommand_of_inPhase hfmt hp) ((sendable_iff idx f).1 hsend),
    frameOfBytes_frameBytes, hframe]
  rfl

/-! ### The fields of six bytes -/

/-- A byte inside the argument of a frame is that byte of the argument. -/
theorem extractLsb'_frameOf_arg (idx : BitVec 6) (f : FrameFields) (k : Nat) (hk : k + 8 ≤ 32 := by decide) :
    (frameOf idx f).extractLsb' (8 + k) 8 = f.arg.extractLsb' k 8 := by
  apply BitVec.eq_of_getLsbD_eq
  intro j hj
  simp only [BitVec.getLsbD_extractLsb', frameOf_getLsbD, hj, decide_true, Bool.true_and,
    if_neg (show ¬ 8 + k + j < 8 by omega), if_pos (show 8 + k + j < 40 by omega), show 8 + k + j - 8 = k + j by omega]

/-- The bytes of a frame: framing bits and index, the argument big-endian, the CRC byte. -/
theorem frameBytes_frameOf (idx : BitVec 6) (f : FrameFields) :
    frameBytes (frameOf idx f) = #v[f.framing ++ idx, f.arg.extractLsb' 24 8, f.arg.extractLsb' 16 8,
      f.arg.extractLsb' 8 8, f.arg.extractLsb' 0 8, f.crc] := by
  have hcrc : (frameOf idx f).extractLsb' 0 8 = f.crc := congrArg FrameFields.crc (frameFields_frameOf idx f)
  have hfirst : (frameOf idx f).extractLsb' 40 8 = f.framing ++ idx := frameBytes_first idx f
  have h4 : (frameOf idx f).extractLsb' 32 8 = f.arg.extractLsb' 24 8 := extractLsb'_frameOf_arg idx f 24
  have h3 : (frameOf idx f).extractLsb' 24 8 = f.arg.extractLsb' 16 8 := extractLsb'_frameOf_arg idx f 16
  have h2 : (frameOf idx f).extractLsb' 16 8 = f.arg.extractLsb' 8 8 := extractLsb'_frameOf_arg idx f 8
  have h1 : (frameOf idx f).extractLsb' 8 8 = f.arg.extractLsb' 0 8 := extractLsb'_frameOf_arg idx f 0
  simp only [frameBytes, hfirst, h4, h3, h2, h1, hcrc]

/-- A 32-bit word is its four bytes, big-endian. -/
theorem bytes_or_bytes (a : BitVec 32) :
    (a.extractLsb' 24 8).setWidth 32 <<< 24 ||| (a.extractLsb' 16 8).setWidth 32 <<< 16 |||
      (a.extractLsb' 8 8).setWidth 32 <<< 8 ||| (a.extractLsb' 0 8).setWidth 32 = a := by
  apply BitVec.eq_of_getLsbD_eq
  intro j hj
  simp only [BitVec.getLsbD_or, BitVec.getLsbD_shiftLeft, BitVec.getLsbD_setWidth, BitVec.getLsbD_extractLsb']
  -- The bit lies in one of the four bytes.
  obtain h | h | h | h : j < 8 ∨ (8 ≤ j ∧ j < 16) ∨ (16 ≤ j ∧ j < 24) ∨ 24 ≤ j := by omega
  all_goals grind

/-- Settles O5: the six bytes are those of a frame put together from its fields, so `frameBytes_frameOf` names each. -/
theorem frameFieldsOfBytes : Obligations.FrameFieldsOfBytes := by
  intro v
  obtain ⟨idx, f, hv⟩ : ∃ idx f, v = frameBytes (frameOf idx f) :=
    ⟨frameIndex (frameOfBytes v), frameFields (frameOfBytes v), by
      rw [frameOf_frameFields, frameBytes_frameOfBytes]⟩
  subst hv
  simp only [frameOfBytes_frameBytes, frameIndex_frameOf, frameFields_frameOf]
  rw [frameBytes_frameOf]
  exact ⟨BitVec.extractLsb'_append_eq_right.symm, BitVec.extractLsb'_append_eq_left.symm, (bytes_or_bytes f.arg).symm,
    rfl, trivial⟩

end Sys2Proof
end

section
/-! PROOFS. The fields of a frame that no command reads (30_encoding.md R74, R75, 41_commands.md R147). -/

namespace Sys2Proof

open Sys2Proof.Machine

/-- In IDLE two frames with one index act alike, if for a block command they have one argument. -/
theorem exec_decodeIdle_congr (s : State) (idx : BitVec 6) {f f' : FrameFields}
    (harg : idx ∈ ([17, 18, 24, 25] : List (BitVec 6)) → f.arg = f'.arg) :
    exec (decodeIdle idx f) s = exec (decodeIdle idx f') s := by
  by_cases hblock : idx ∈ ([17, 18, 24, 25] : List (BitVec 6))
  · specialize harg hblock
    simp only [List.mem_cons, List.not_mem_nil, or_false] at hblock
    obtain rfl | rfl | rfl | rfl := hblock
    · show execCmd17 f s = execCmd17 f' s
      rw [execCmd17, execCmd17, harg]
    · show execCmd18 f s = execCmd18 f' s
      rw [execCmd18, execCmd18, harg]
    · show execCmd24 f s = execCmd24 f' s
      rw [execCmd24, execCmd24, harg]
    · show execCmd25 f s = execCmd25 f' s
      rw [execCmd25, execCmd25, harg]
  · simp only [List.mem_cons, List.not_mem_nil, or_false, not_or] at hblock
    obtain ⟨h17, h18, h24, h25⟩ := hblock
    simp only [decodeIdle, if_neg h17, if_neg h18, if_neg h24, if_neg h25]
    split_ifs <;> rfl

/-- Settles O21, by the row of each phase: both frames are one row, and outside IDLE's block commands no row reads its
fields. -/
theorem ignoredFrameFieldsHaveNoEffect : Obligations.IgnoredFrameFieldsHaveNoEffect := by
  intro c w w' i i' s hidx harg hi hi'
  cases hp : c.phase
  case boot | spi | spiAcmd | idleAcmd =>
    simp only [decodeFrame, hp, hidx] at hi hi'
    cases hi
    cases hi'
    split_ifs <;> rfl
  case idle =>
    rw [decodeFrame_idle hp, hidx] at hi
    rw [decodeFrame_idle hp] at hi'
    cases hi
    cases hi'
    split_ifs
    · rfl
    · exact exec_decodeIdle_congr s _ fun hblock => harg hp (hidx ▸ hblock)
  case cmdResponse | readBlock | writeStbt | writeListen | writeCrc =>
    rw [decodeFrame_of_not_isCommand (by rw [hp]; rfl)] at hi
    exact nomatch hi

end Sys2Proof
end

section
/-! PROOFS. The ports: what Produce and Accept do is the same whatever events are to come and whatever was sent
(43_adapter.md R180, logs 4 and 5). -/

namespace Sys2Proof

open Sys2Proof.Machine

/-- The state with its two ports replaced: the events to come and the MISO bytes so far. -/
def Machine.State.withPorts (is : List PortEvent) (ms : List Byte) (s : State) : State :=
  { s with inputs := is, miso := ms }

section
variable (is : List PortEvent) (ms : List Byte)

@[simp] theorem Machine.State.withPorts_cfg (s : State) : (s.withPorts is ms).cfg = s.cfg := rfl

@[simp] theorem Machine.State.withPorts_decodeCtx (s : State) : (s.withPorts is ms).decodeCtx = s.decodeCtx := rfl

@[simp] theorem Machine.State.withPorts_frameWord (s : State) : (s.withPorts is ms).frameWord = s.frameWord := rfl

theorem startRead_withPorts (arg : BitVec 32) (multi : Bool) (s : State) :
    startRead arg multi (s.withPorts is ms) = (startRead arg multi s).withPorts is ms := by
  cases h : inRange s.cfg arg with
  | true => rw [startRead_inRange multi h, startRead_inRange (s := s.withPorts is ms) multi h]; rfl
  | false => rw [startRead_outOfRange multi h, startRead_outOfRange (s := s.withPorts is ms) multi h]; rfl

theorem startWrite_withPorts (arg : BitVec 32) (multi : Bool) (s : State) :
    startWrite arg multi (s.withPorts is ms) = (startWrite arg multi s).withPorts is ms := by
  cases h : inRange s.cfg arg with
  | true => rw [startWrite_inRange multi h, startWrite_inRange (s := s.withPorts is ms) multi h]; rfl
  | false => rw [startWrite_outOfRange multi h, startWrite_outOfRange (s := s.withPorts is ms) multi h]; rfl

variable {is ms} {s t : State}

theorem runCommand_withPorts {i : Instr} (h : runCommand i s = .next t) :
    runCommand i (s.withPorts is ms) = .next (t.withPorts is ms) := by
  cases i
  case cmd17 f => cases h; exact congrArg Host.Outcome.next (startRead_withPorts is ms f.arg false s)
  case cmd24 f => cases h; exact congrArg Host.Outcome.next (startWrite_withPorts is ms f.arg false s)
  case cmd18 f =>
    simp only [runCommand, execCmd18, State.withPorts_cfg] at h ⊢
    split at h
    · cases h; rw [startRead_withPorts]
    · exact nomatch h
  case cmd25 f =>
    simp only [runCommand, execCmd25, State.withPorts_cfg] at h ⊢
    split at h
    · cases h; rw [startWrite_withPorts]
    · exact nomatch h
  case cmd0 | illegalBoot | cmd55 | illegalSpi | acmd41 | illegalSpiAcmd | illegalIdleAcmd | cmd13 | cmd55Idle | cmd58
      | illegalIdle => cases h; rfl
  all_goals exact nomatch h

theorem dispatchFrame_withPorts (h : dispatchFrame s = .next t) :
    dispatchFrame (s.withPorts is ms) = .next (t.withPorts is ms) := by
  obtain ⟨i, hi, hrun⟩ := dispatchFrame_eq_next h
  rw [dispatchFrame, State.withPorts_decodeCtx, State.withPorts_frameWord, hi]
  exact runCommand_withPorts hrun

theorem execFrameByte_withPorts {b : Byte} (h : execFrameByte b s = .next t) :
    execFrameByte b (s.withPorts is ms) = .next (t.withPorts is ms) := by
  by_cases hfill : s.cmdLen = 0 ∧ b = fillerByte
  · rw [execFrameByte_filler hfill.1 hfill.2] at h
    cases h
    exact execFrameByte_filler hfill.1 hfill.2
  · by_cases h5 : s.cmdLen.val = 5
    · rw [execFrameByte_sixth b h5] at h
      obtain ⟨u, hu, ht⟩ := andThen_eq_next h
      cases ht
      rw [execFrameByte_sixth (s := s.withPorts is ms) b h5]
      exact congrArg (andThen · _) (dispatchFrame_withPorts hu)
    · have hn : s.cmdLen.val + 1 < 6 := by omega
      rw [execFrameByte_capture hfill ⟨s.cmdLen.val + 1, hn⟩ rfl] at h
      cases h
      exact execFrameByte_capture (s := s.withPorts is ms) hfill ⟨s.cmdLen.val + 1, hn⟩ rfl

theorem execWriteDataByte_withPorts {b : Byte} (h : execWriteDataByte b s = .next t) :
    execWriteDataByte b (s.withPorts is ms) = .next (t.withPorts is ms) := by
  obtain ⟨hlt, ⟨hlast, rfl⟩ | ⟨n, hn, rfl⟩⟩ := execWriteDataByte_cases h
  · exact execWriteDataByte_last (s := s.withPorts is ms) b hlt hlast
  · exact execWriteDataByte_more (s := s.withPorts is ms) b hlt n hn

/-- Accept neither reads nor writes the ports. -/
theorem accept_withPorts {b : Byte} (h : accept b s = .next t) :
    accept b (s.withPorts is ms) = .next (t.withPorts is ms) := by
  simp only [accept, State.withPorts_decodeCtx] at h ⊢
  generalize decodeByte s.decodeCtx b = i at h
  cases i
  case frameByte b => exact execFrameByte_withPorts h
  case writeDataByte b => exact execWriteDataByte_withPorts h
  case startBlockToken | discardedByte | writeCrcByte0 | writeCrcByte1 | txFiller | txViolation => cases h; rfl
  all_goals exact nomatch h

theorem produceResponse_more (n : Fin 5) (hn : n.val = s.respIdx.val + 1) (hlt : n.val < s.respLen.val) :
    produceResponse s = .ok (s.respBuf[s.respIdx], { s with respIdx := n }) := by
  have hn' : (⟨s.respIdx.val + 1, by omega⟩ : Fin 5) = n := Fin.ext hn.symm
  rw [produceResponse, dif_pos (by omega), dif_neg (by omega), hn']

theorem produceResponse_last (h : s.respIdx.val + 1 = s.respLen.val) :
    produceResponse s = .ok (s.respBuf[s.respIdx], endResponse s) := by
  rw [produceResponse, dif_pos (by omega), dif_pos h]

theorem produce_cmdResponse (hp : s.phase = .cmdResponse) : produce s = produceResponse s := by
  rw [produce, hp]

theorem produce_readBlock (hp : s.phase = .readBlock) : produce s = produceBlockByte s := by
  rw [produce, hp]

theorem produce_writeCrc (hp : s.phase = .writeCrc) : produce s = .ok (dataAccepted, s) := by
  rw [produce, hp]

/-- Produce neither reads nor writes the ports. -/
theorem produce_withPorts {out : Byte} (h : produce s = .ok (out, t)) :
    produce (s.withPorts is ms) = .ok (out, t.withPorts is ms) := by
  obtain ⟨hp, h⟩ | ⟨hp, h⟩ | ⟨hp, rfl, rfl⟩ | ⟨h1, h2, h3, rfl, rfl⟩ := produce_cases h
  · rw [produce_cmdResponse (s := s.withPorts is ms) hp]
    obtain ⟨-, rfl, ⟨hlast, rfl⟩ | ⟨n, hn, hlt, rfl⟩⟩ := produceResponse_cases h
    · exact produceResponse_last (s := s.withPorts is ms) hlast
    · exact produceResponse_more (s := s.withPorts is ms) n hn (by rw [hn]; exact hlt)
  · rw [produce_readBlock (s := s.withPorts is ms) hp]
    obtain ⟨hread, ⟨hlast, rfl⟩ | ⟨n, hn, rfl⟩⟩ := produceBlockByte_cases h
    · exact produceBlockByte_last (s := s.withPorts is ms) hread hlast
    · exact produceBlockByte_more (s := s.withPorts is ms) hread n hn
  · exact produce_writeCrc hp
  · exact produce_filler h1 h2 h3

end
end Sys2Proof
end

section
/-! PROOFS. Exchanges: runs of selected MOSI bytes with their answers, as a relation that composes, and one lemma for
each part of a transaction: a frame, a response, a written block, a read block. -/

namespace Sys2Proof

open Sys2Proof.Machine

/-! ### Runs of bytes -/

/-- From `s` the MOSI bytes `mosi` are answered by the bytes `miso` and lead to `t`, whatever the host sends afterwards
and whatever was sent before: the ports of `s` and `t` themselves do not matter. -/
def Exchanges (s : State) (mosi miso : List Byte) (t : State) : Prop :=
  ∀ rest sent, runSteps mosi.length (s.withPorts (rawEvents mosi ++ rest) sent) =
    .next (t.withPorts rest (sent ++ miso))

theorem Exchanges.nil (s : State) : Exchanges s [] [] s := by
  intro rest sent
  rw [List.append_nil]
  rfl

theorem Exchanges.append {s t u : State} {mosi mosi' miso miso' : List Byte} (h : Exchanges s mosi miso t)
    (h' : Exchanges t mosi' miso' u) : Exchanges s (mosi ++ mosi') (miso ++ miso') u := by
  intro rest sent
  have hraw : rawEvents (mosi ++ mosi') ++ rest = rawEvents mosi ++ (rawEvents mosi' ++ rest) := by
    simp [rawEvents]
  rw [List.length_append, runSteps_add, hraw, h, andThen_next, h', List.append_assoc]

theorem Exchanges.cons {s t u : State} {b out : Byte} {mosi miso : List Byte} (h : Exchanges s [b] [out] t)
    (h' : Exchanges t mosi miso u) : Exchanges s (b :: mosi) (out :: miso) u :=
  h.append h'

/-- A step whose next event is a selected byte. -/
theorem step_mosi {s t : State} {b out : Byte} (rest : List PortEvent) (sent : List Byte) (hcs : s.csSel = true)
    (hproduce : produce s = .ok (out, t)) :
    step (s.withPorts (.mosi b :: rest) sent) = accept b (t.withPorts rest (sent ++ [out])) := by
  rw [step_cons (e := .mosi b) (rest := rest) rfl]
  exact execMosiByte_selected (s := s.withPorts rest sent) hcs (produce_withPorts hproduce)

/-- One byte: Produce gives the answer, and Accept goes on from the state it left (43_adapter.md R183). -/
theorem exchanges_byte {s t u : State} {b out : Byte} (hcs : s.csSel = true) (hproduce : produce s = .ok (out, u))
    (haccept : accept b u = .next t) : Exchanges s [b] [out] t := by
  intro rest sent
  have hstep := (step_mosi rest sent hcs hproduce).trans (accept_withPorts haccept)
  rw [List.length_singleton, runSteps]
  exact congrArg (andThen · (runSteps 0)) hstep

/-! ### Filler -/

theorem accept_frameByte {s : State} (hp : s.phase.isCommand = true) (b : Byte) : accept b s = execFrameByte b s := by
  rw [accept, decodeByte_frameByte hp]
  rfl

theorem accept_txFiller {s : State} (hp : s.phase.isTx = true) : accept fillerByte s = .next s := by
  rw [accept, decodeByte_tx hp]
  rfl

/-- A filler byte changes nothing where it is no data, no CRC byte and no byte of a frame in progress. -/
theorem accept_filler {s : State} (hl : s.phase ≠ .writeListen) (hc : s.phase ≠ .writeCrc) (h0 : s.cmdLen = 0) :
    accept fillerByte s = .next s := by
  cases hp : s.phase
  case boot | spi | spiAcmd | idle | idleAcmd =>
    rw [accept_frameByte (by rw [hp]; rfl), execFrameByte_filler h0 rfl]
  case writeStbt => simp [accept, decodeByte, hp, fillerByte, startToken, runByte, execDiscardedByte]
  case cmdResponse | readBlock => exact accept_txFiller (by rw [hp]; rfl)
  case writeListen => exact absurd hp hl
  case writeCrc => exact absurd hp hc

theorem produce_command {s : State} (hp : s.phase.isCommand = true) : produce s = .ok (fillerByte, s) :=
  produce_filler (Phase.ne_of_isCommand hp rfl) (Phase.ne_of_isCommand hp rfl) (Phase.ne_of_isCommand hp rfl)

/-- Filler between frames is answered by filler. -/
theorem exchanges_filler {s : State} (hcs : s.csSel = true) (hp : s.phase.isCommand = true) (h0 : s.cmdLen = 0) :
    Exchanges s [fillerByte] [fillerByte] s :=
  exchanges_byte hcs (produce_command hp)
    (accept_filler (Phase.ne_of_isCommand hp rfl) (Phase.ne_of_isCommand hp rfl) h0)

/-! ### A response -/

/-- The next byte to send is the first of those still to send. -/
theorem pending_eq_cons {s : State} (hlt : s.respIdx.val < s.respLen.val) :
    State.pending s =
      s.respBuf[s.respIdx] :: (s.respBuf.toList.take s.respLen.val).drop (s.respIdx.val + 1) := by
  have hlen : s.respIdx.val < (s.respBuf.toList.take s.respLen.val).length := by
    simp only [List.length_take, Vector.length_toList]
    omega
  rw [State.pending, List.drop_eq_getElem_cons hlen]
  simp

/-- A queued response is sent whole, one byte for each filler, and the phase recorded before it follows
(40_byte_engine.md R109). -/
theorem exchanges_response {s : State} (hcs : s.csSel = true) (hp : s.phase = .cmdResponse)
    (hlt : s.respIdx.val < s.respLen.val) (hl : s.afterSend ≠ .writeListen) (hc : s.afterSend ≠ .writeCrc)
    (h0 : s.cmdLen = 0) :
    Exchanges s (List.replicate (State.pending s).length fillerByte) (State.pending s) (endResponse s) := by
  generalize hbs : State.pending s = bs
  induction bs generalizing s with
  | nil => simp [pending_eq_cons hlt] at hbs
  | cons out bs ih =>
    obtain ⟨rfl, htail⟩ := List.cons.inj ((pending_eq_cons hlt).symm.trans hbs)
    by_cases hlast : s.respIdx.val + 1 = s.respLen.val
    · have hnil : bs = [] := by
        rw [← htail, hlast]
        exact List.drop_of_length_le (List.length_take_le _ _)
      rw [hnil]
      exact exchanges_byte hcs ((produce_cmdResponse hp).trans (produceResponse_last hlast)) (accept_filler hl hc h0)
    · have hmore : s.respIdx.val + 1 < s.respLen.val := by omega
      have hidx : s.respIdx.val + 1 < 5 := by omega
      have hproduce := (produce_cmdResponse hp).trans (produceResponse_more ⟨s.respIdx.val + 1, hidx⟩ rfl hmore)
      exact (exchanges_byte hcs hproduce (accept_txFiller (congrArg Phase.isTx hp))).cons
        (ih hcs hp hmore hl hc h0 htail)

/-! ### A frame -/

/-- The frame buffer `buf` with the first `k` bytes of `v` captured. -/
def capturedPart (v buf : Vector Byte 6) (k : Nat) : Vector Byte 6 :=
  Vector.ofFn fun i => if i.val < k then v[i] else buf[i]

theorem capturedPart_zero (v buf : Vector Byte 6) : capturedPart v buf 0 = buf := by
  ext i hi
  simp [capturedPart]

theorem capturedPart_six (v buf : Vector Byte 6) : capturedPart v buf 6 = v := by
  ext i hi
  simp [capturedPart]

theorem capturedPart_set (v buf : Vector Byte 6) {k : Nat} (hk : k < 6) :
    (capturedPart v buf k).set k v[k] = capturedPart v buf (k + 1) := by
  ext i hi : 1
  rw [Vector.getElem_set]
  by_cases h : k = i
  · simp [capturedPart, h]
  · have hiff : i < k + 1 ↔ i < k := by omega
    simp only [capturedPart, Vector.getElem_ofFn, if_neg h, hiff]

/-- The state `s` with the first `k` bytes of the frame `v` captured. -/
def capturing (v : Vector Byte 6) (k : Fin 6) (s : State) : State :=
  { s with cmdBuf := capturedPart v s.cmdBuf k, cmdLen := k }

/-- The bytes of a frame before its sixth are captured one by one, each answered by filler (40_byte_engine.md R102). -/
theorem exchanges_capturing {s : State} {v : Vector Byte 6} (hcs : s.csSel = true) (hp : s.phase.isCommand = true)
    (h0 : s.cmdLen = 0) (hv : v[0] ≠ fillerByte) (k : Nat) (hk : k < 6) :
    Exchanges s (v.toList.take k) (List.replicate k fillerByte) (capturing v ⟨k, hk⟩ s) := by
  induction k with
  | zero =>
    have hself : capturing v ⟨0, hk⟩ s = s := by
      rw [capturing, capturedPart_zero, show (⟨0, hk⟩ : Fin 6) = s.cmdLen from h0.symm]
    rw [hself]
    exact Exchanges.nil s
  | succ k ih =>
    have hk' : k < 6 := Nat.lt_of_succ_lt hk
    have hlen : k < v.toList.length := by rwa [Vector.length_toList]
    have hfill : ¬((⟨k, hk'⟩ : Fin 6) = 0 ∧ v[k] = fillerByte) := by
      rintro ⟨hzero, hb⟩
      obtain rfl : k = 0 := congrArg Fin.val hzero
      exact hv hb
    have haccept : accept v[k] (capturing v ⟨k, hk'⟩ s) = .next (capturing v ⟨k + 1, hk⟩ s) := by
      rw [accept_frameByte (s := capturing v ⟨k, hk'⟩ s) hp, capturing, capturing, ← capturedPart_set v s.cmdBuf hk']
      exact execFrameByte_capture hfill ⟨k + 1, hk⟩ rfl
    rw [List.take_succ_eq_append_getElem hlen, List.replicate_succ', Vector.getElem_toList]
    exact (ih hk').append
      (exchanges_byte hcs (produce_command hp) haccept)

/-- The sixth byte runs the command the whole frame decodes to. -/
theorem accept_sixth {s : State} {v : Vector Byte 6} {b : Byte} {i : Instr} (hp : s.phase.isCommand = true)
    (h5 : s.cmdLen.val = 5) (hv : s.cmdBuf.set 5 b = v) (hi : decodeFrame s.decodeCtx (frameOfBytes v) = .ok i) :
    accept b s = andThen (exec i { s with cmdBuf := v }) fun t => .next { t with cmdLen := 0 } := by
  rw [accept_frameByte hp, execFrameByte_sixth b h5, hv]
  exact congrArg (andThen · _) (dispatchFrame_eq_exec (s := { s with cmdBuf := v }) hi)

/-- Six bytes run the command their frame decodes to, on the state that holds them in `cmd_buf` (40_byte_engine.md R102,
R112). -/
theorem runSteps_frame {s : State} {v : Vector Byte 6} {i : Instr} (hcs : s.csSel = true)
    (hp : s.phase.isCommand = true) (h0 : s.cmdLen = 0) (hv : v[0] ≠ fillerByte)
    (hi : decodeFrame s.decodeCtx (frameOfBytes v) = .ok i) (rest : List PortEvent) (sent : List Byte) :
    runSteps 6 (s.withPorts (rawEvents v.toList ++ rest) sent) =
      andThen (exec i (State.withPorts rest (sent ++ List.replicate 6 fillerByte) { s with cmdBuf := v, cmdLen := 5 }))
        fun t => .next { t with cmdLen := 0 } := by
  have hsplit : rawEvents v.toList ++ rest = rawEvents (v.toList.take 5) ++ (.mosi v[5] :: rest) := by
    rw [toList_six]
    rfl
  have hlen : (v.toList.take 5).length = 5 := by simp
  have hfive := exchanges_capturing hcs hp h0 hv 5 (by decide) (.mosi v[5] :: rest) sent
  rw [hlen, ← hsplit] at hfive
  have hset : (capturedPart v s.cmdBuf 5).set 5 v[5] = v :=
    (capturedPart_set v s.cmdBuf (by decide)).trans (capturedPart_six v s.cmdBuf)
  have hsixth := step_mosi (s := capturing v 5 s) (b := v[5]) rest (sent ++ List.replicate 5 fillerByte) hcs
    (produce_command (s := capturing v 5 s) hp)
  rw [List.append_assoc, ← List.replicate_succ',
    accept_sixth (s := (capturing v 5 s).withPorts _ _) hp rfl hset hi] at hsixth
  rw [runSteps_add 5 1, hfive, andThen_next, runSteps]
  refine (congrArg (andThen · (runSteps 0)) hsixth).trans ?_
  rw [andThen_assoc]
  rfl

/-- Settles O50: a frame decodes in every command phase, and `runSteps_frame` says what its six bytes run. -/
theorem sixBytesRunTheirCommand : Obligations.SixBytesRunTheirCommand := by
  intro s v rest hp h0 hcs hv hin
  obtain ⟨i, hi⟩ := decodeFrame_total (c := s.decodeCtx) (frameOfBytes v) hp
  have hrun := runSteps_frame hcs hp (Fin.ext h0) hv hi rest s.miso
  have hs : s.withPorts (rawEvents v.toList ++ rest) s.miso = s := by
    rw [rawEvents, ← hin]
    rfl
  rw [hs] at hrun
  refine ⟨i, hi, hrun.trans ?_⟩
  change andThen (exec i { s with
    cmdBuf := v
    cmdLen := 5
    inputs := rest
    miso := s.miso ++ List.replicate 6 0xFF }) _ = _
  generalize exec i _ = o
  cases o <;> rfl

end Sys2Proof
end

section
/-! PROOFS. The block transactions: a write stores its payload, a read streams the store, and a read after a write
returns the payload (30_encoding.md R84, 95_test_vectors.md 1.2). -/

namespace Sys2Proof

open Sys2Proof.Machine

/-! ### A written block -/

/-- The store after the bytes `d` are written from the address `a` on. -/
def storeBytes (image : List Host.Cell) : Memory → Nat → List Byte → Memory
  | m, _, [] => m
  | m, a, b :: d => storeBytes image (Memory.write image m a b) (a + 1) d

/-- An address outside the written bytes reads as before. -/
theorem read_storeBytes_outside {image : List Host.Cell} {m : Memory} {a x : Nat} {d : List Byte}
    (hwf : Memory.wf image m = true) (hx : x < a ∨ a + d.length ≤ x) :
    Memory.read image (storeBytes image m a d) x = Memory.read image m x := by
  induction d generalizing m a with
  | nil => rfl
  | cons b d ih =>
    rw [List.length_cons] at hx
    rw [storeBytes, ih (wf_write a b hwf) (by omega), read_write a b hwf, if_neg (by omega)]

/-- The written bytes are read back. -/
theorem read_storeBytes {image : List Host.Cell} {m : Memory} {a k : Nat} {d : List Byte}
    (hwf : Memory.wf image m = true) (hk : k < d.length) :
    Memory.read image (storeBytes image m a d) (a + k) = d[k] := by
  induction d generalizing m a k with
  | nil => exact absurd hk (Nat.not_lt_zero k)
  | cons b d ih =>
    have hwf' := wf_write a b hwf
    cases k with
    | zero =>
      rw [storeBytes, read_storeBytes_outside hwf' (by omega), read_write a b hwf]
      simp
    | succ k =>
      have hk' : k < d.length := Nat.lt_of_succ_lt_succ hk
      rw [storeBytes, show a + (k + 1) = a + 1 + k by omega, ih hwf' hk', List.getElem_cons_succ]

/-- The state after the data bytes `d` complete a block (40_byte_engine.md R104). -/
def afterWrittenBytes (d : List Byte) (s : State) : State :=
  { s with
    store := storeBytes s.cfg.initialImage s.store s.head d
    crc16 := crc16Fold s.crc16 d
    head := s.head + d.length
    blkCount := 0
    phase := .writeCrc
    wcrcIdx := 0
    wcrcOk := true }

theorem afterWrittenBytes_cons (b : Byte) (d : List Byte) (n : Fin 512) (s : State) :
    afterWrittenBytes (b :: d) s = afterWrittenBytes d { s with
      store := Memory.write s.cfg.initialImage s.store s.head b
      crc16 := fold16 s.crc16 b
      head := s.head + 1
      blkCount := n } := by
  have hhead : s.head + (d.length + 1) = s.head + 1 + d.length := by omega
  simp only [afterWrittenBytes, List.length_cons, hhead]
  rfl

/-- The data bytes that complete a block are stored from the cursor on, each answered by filler. -/
theorem exchanges_writtenBytes {s : State} {d : List Byte} (hcs : s.csSel = true) (hp : s.phase = .writeListen)
    (hlen : s.blkCount.val + d.length = 512) (hfit : s.head + d.length ≤ s.cfg.capacity) :
    Exchanges s d (List.replicate d.length fillerByte) (afterWrittenBytes d s) := by
  induction d generalizing s with
  | nil => exact absurd hlen (Nat.ne_of_lt s.blkCount.isLt)
  | cons b d ih =>
    rw [List.length_cons] at hlen hfit
    have hproduce : produce s = .ok (fillerByte, s) := produce_filler (by simp [hp]) (by simp [hp]) (by simp [hp])
    have haccept : accept b s = execWriteDataByte b s := by simp [accept, decodeByte, hp, runByte]
    have hlt : s.head < s.cfg.capacity := by omega
    cases d with
    | nil =>
      refine exchanges_byte hcs hproduce (haccept.trans (execWriteDataByte_last b hlt ?_))
      simpa using hlen
    | cons b' d =>
      have hpos : 0 < (b' :: d).length := Nat.succ_pos _
      have hn : s.blkCount.val + 1 < 512 := by omega
      have hlen' : s.blkCount.val + 1 + (b' :: d).length = 512 := by omega
      have hfit' : s.head + 1 + (b' :: d).length ≤ s.cfg.capacity := by omega
      have hmore := haccept.trans (execWriteDataByte_more b hlt ⟨s.blkCount.val + 1, hn⟩ rfl)
      rw [afterWrittenBytes_cons b _ ⟨s.blkCount.val + 1, hn⟩]
      exact (exchanges_byte hcs hproduce hmore).cons (ih hcs hp hlen' hfit')

/-! ### A read block -/

/-- The state after the block bytes `d` that complete a block were sent (40_byte_engine.md R110). -/
def afterReadBytes (d : List Byte) (s : State) : State :=
  queue (.crcTrailer (crc16Fold s.crc16 d)) .idle
    { s with crc16 := crc16Fold s.crc16 d, head := s.head + d.length, blkCount := 0 }

theorem afterReadBytes_cons (b : Byte) (d : List Byte) (n : Fin 512) (s : State) :
    afterReadBytes (b :: d) s =
      afterReadBytes d { s with crc16 := fold16 s.crc16 b, head := s.head + 1, blkCount := n } := by
  have hhead : s.head + (d.length + 1) = s.head + 1 + d.length := by omega
  simp only [afterReadBytes, List.length_cons, hhead]
  rfl

/-- The store's bytes that complete a block are sent from the cursor on, one for each filler. -/
theorem exchanges_readBytes {s : State} {d : List Byte} (hcs : s.csSel = true) (hp : s.phase = .readBlock)
    (hlen : s.blkCount.val + d.length = 512) (hread : ∀ k, k < d.length → s.memRead (s.head + k) = d[k]?) :
    Exchanges s (List.replicate d.length fillerByte) d (afterReadBytes d s) := by
  induction d generalizing s with
  | nil => exact absurd hlen (Nat.ne_of_lt s.blkCount.isLt)
  | cons b d ih =>
    rw [List.length_cons] at hlen hread
    have hfirst : s.memRead s.head = some b := hread 0 (Nat.succ_pos _)
    cases d with
    | nil =>
      have hlast : s.blkCount.val = 511 := by simpa using hlen
      have hproduce := (produce_readBlock hp).trans (produceBlockByte_last hfirst hlast)
      exact exchanges_byte hcs hproduce (accept_txFiller rfl)
    | cons b' d =>
      have hpos : 0 < (b' :: d).length := Nat.succ_pos _
      have hn : s.blkCount.val + 1 < 512 := by omega
      have hlen' : s.blkCount.val + 1 + (b' :: d).length = 512 := by omega
      have hproduce := (produce_readBlock hp).trans (produceBlockByte_more hfirst ⟨s.blkCount.val + 1, hn⟩ rfl)
      have hrest (k : Nat) (hk : k < (b' :: d).length) : s.memRead (s.head + 1 + k) = (b' :: d)[k]? := by
        rw [Nat.add_assoc, Nat.add_comm 1 k]
        exact hread (k + 1) (Nat.succ_lt_succ hk)
      rw [afterReadBytes_cons b _ ⟨s.blkCount.val + 1, hn⟩]
      exact (exchanges_byte hcs hproduce (accept_txFiller (congrArg Phase.isTx hp))).cons (ih hcs hp hlen' hrest)

/-! ### The commands and the token -/

/-- The fields of the host's frame `CMD<n>(a)` (30_encoding.md R83, 42_crc.md R169). -/
def commandFields (n : BitVec 6) (a : BitVec 32) : FrameFields where
  framing := 1
  arg := a
  crc := crc7FrameByte (commandHead n a)

/-- The host's command bytes are the bytes of its frame. -/
theorem commandBytes_eq_frameBytes (n : BitVec 6) (a : BitVec 32) :
    commandBytes n a = (frameBytes (frameOf n (commandFields n a))).toList := by
  have hfirst : (0x40 : Byte) ||| n.setWidth 8 = (1 : BitVec 2) ++ n := by
    revert n
    decide
  rw [frameBytes_frameOf, commandBytes, commandHead, hfirst]
  rfl

/-- The state `s` with the six bytes of `CMD<n>(a)` captured, as the command finds it (40_byte_engine.md R102). -/
def holdingCommand (n : BitVec 6) (a : BitVec 32) (s : State) : State :=
  { s with cmdBuf := frameBytes (frameOf n (commandFields n a)), cmdLen := 5 }

/-- A command that answers: its six bytes are answered by filler. -/
theorem exchanges_command {s t : State} {n : BitVec 6} {a : BitVec 32} {i : Instr} (hcs : s.csSel = true)
    (hp : s.phase.isCommand = true) (h0 : s.cmdLen = 0) (hn : n ≠ 63)
    (hi : decodeFrame s.decodeCtx (frameOf n (commandFields n a)) = .ok i)
    (hexec : exec i (holdingCommand n a s) = .next t) :
    Exchanges s (commandBytes n a) (List.replicate 6 fillerByte) { t with cmdLen := 0 } := by
  intro rest sent
  have hfmt := decodeFrame_format hi
  have hv := (sendable_iff n (commandFields n a)).1 (sendable_of_ne _ hn)
  rw [← frameOfBytes_frameBytes (frameOf n (commandFields n a))] at hi
  have hrun := runSteps_frame hcs hp h0 hv hi rest sent
  rw [← runCommand_eq_exec hfmt] at hexec hrun
  rw [commandBytes_eq_frameBytes]
  exact hrun.trans (congrArg (andThen · _) (runCommand_withPorts hexec))

/-- Between commands: selected, in IDLE, no frame in progress. -/
structure SelectedIdle (s : State) : Prop where
  csSel : s.csSel = true
  phase : s.phase = .idle
  cmdLen : s.cmdLen = 0

/-- CMD24 on a block in range queues R1 and puts the cursor at the block (41_commands.md R141). -/
theorem exchanges_cmd24 {s : State} {a : BitVec 32} (h : SelectedIdle s)
    (hr : inRange s.cfg a = true) :
    Exchanges s (commandBytes 24 a) (List.replicate 6 fillerByte)
      (queue .r1Ready .writeStbt { holdingCommand 24 a s with cmdLen := 0, head := a.toNat, multi := false }) := by
  have hphase : (Instr.cmd24 (commandFields 24 a)).inPhase s.decodeCtx = true := beq_iff_eq.2 h.phase
  have hi := decodeOfEncode s.decodeCtx (.cmd24 (commandFields 24 a)) rfl hphase
  have hexec : exec (.cmd24 (commandFields 24 a)) (holdingCommand 24 a s) =
      .next (queue .r1Ready .writeStbt { holdingCommand 24 a s with head := a.toNat, multi := false }) :=
    congrArg Host.Outcome.next (startWrite_inRange (s := holdingCommand 24 a s) false hr)
  have hrun := exchanges_command h.csSel (by rw [h.phase]; rfl) h.cmdLen (by decide) hi hexec
  exact hrun

/-- CMD17 on a block in range queues the preamble and starts the CRC and the count (41_commands.md R139). -/
theorem exchanges_cmd17 {s : State} {a : BitVec 32} (h : SelectedIdle s)
    (hr : inRange s.cfg a = true) :
    Exchanges s (commandBytes 17 a) (List.replicate 6 fillerByte) (queue (.readPreamble s.cfg.readR1Prefix) .readBlock
      { holdingCommand 17 a s with
        cmdLen := 0, head := a.toNat, multi := false, crc16 := crc16Init, blkCount := 0 }) := by
  have hphase : (Instr.cmd17 (commandFields 17 a)).inPhase s.decodeCtx = true := beq_iff_eq.2 h.phase
  have hi := decodeOfEncode s.decodeCtx (.cmd17 (commandFields 17 a)) rfl hphase
  have hexec : exec (.cmd17 (commandFields 17 a)) (holdingCommand 17 a s) =
      .next (queue (.readPreamble s.cfg.readR1Prefix) .readBlock
        { holdingCommand 17 a s with head := a.toNat, multi := false, crc16 := crc16Init, blkCount := 0 }) :=
    congrArg Host.Outcome.next (startRead_inRange (s := holdingCommand 17 a s) false hr)
  have hrun := exchanges_command h.csSel (by rw [h.phase]; rfl) h.cmdLen (by decide) hi hexec
  exact hrun

/-- A response just queued is sent whole. -/
theorem exchanges_queued {r : Response} {next : Phase} {s : State} (hcs : s.csSel = true) (h0 : s.cmdLen = 0)
    (hl : next ≠ .writeListen) (hc : next ≠ .writeCrc) :
    Exchanges (queue r next s) (List.replicate r.bytes.length fillerByte) r.bytes (endResponse (queue r next s)) := by
  have hlt : (queue r next s).respIdx.val < (queue r next s).respLen.val := r.bytes_length.1
  have hrun := exchanges_response (s := queue r next s) hcs rfl hlt hl hc h0
  rwa [pending_queue] at hrun

/-- The start-block token opens the block with a fresh CRC and count (40_byte_engine.md R103). -/
theorem exchanges_token {s : State} (hcs : s.csSel = true) (hp : s.phase = .writeStbt) :
    Exchanges s [startToken] [fillerByte] { s with phase := .writeListen, crc16 := crc16Init, blkCount := 0 } := by
  have hproduce : produce s = .ok (fillerByte, s) := produce_filler (by simp [hp]) (by simp [hp]) (by simp [hp])
  exact exchanges_byte hcs hproduce (by simp [accept, decodeByte, hp, runByte, execStartBlockToken])

/-- The expected byte passes whatever CRC_ENFORCE is. -/
theorem wcrcOkAfter_self {s : State} (hok : s.wcrcOk = true) (b : Byte) : s.wcrcOkAfter b b = true := by
  simp [State.wcrcOkAfter, wcrcByteOk, hok]

/-- The block's own CRC, low byte first, is accepted: two placeholders, and the token 0x05 is queued
(40_byte_engine.md R105, R106, R111). -/
theorem exchanges_writeCrc {s : State} (hcs : s.csSel = true) (hp : s.phase = .writeCrc) (hidx : s.wcrcIdx = 0)
    (hok : s.wcrcOk = true) :
    Exchanges s [crcLow s.crc16, crcHigh s.crc16] [dataAccepted, dataAccepted]
      (queue (.dataResponse true) .idle { s with wcrcOk := true, wcrcIdx := 0 }) := by
  have hlow : accept (crcLow s.crc16) s = .next { s with wcrcOk := true, wcrcIdx := 1 } := by
    simp [accept, decodeByte, hp, hidx, runByte, execWriteCrcByte0, wcrcOkAfter_self hok]
  have hhigh : accept (crcHigh s.crc16) { s with wcrcOk := true, wcrcIdx := 1 } =
      .next (queue (.dataResponse true) .idle { s with wcrcOk := true, wcrcIdx := 0 }) := by
    simp [accept, decodeByte, hp, runByte, execWriteCrcByte1, wcrcOkAfter_self]
  exact (exchanges_byte hcs (produce_writeCrc hp) hlow).cons
    (exchanges_byte hcs (produce_writeCrc hp) hhigh)

/-! ### WRITE and READ -/

/-- The MOSI bytes of `WRITE(a, d)` (30_encoding.md R84). -/
def writeBytes (a : BitVec 32) (d : List Byte) : List Byte :=
  commandBytes 24 a ++ [fillerByte] ++ [startToken] ++ d ++ [crcLow (crc16Of d), crcHigh (crc16Of d)] ++ [fillerByte]

theorem writeEvents_eq_rawEvents (a : BitVec 32) (d : List Byte) : writeEvents a d = rawEvents (writeBytes a d) := by
  simp [writeEvents, writeBytes, commandEvents, fillEvents, tokenEvents, wcrcEvents, rawEvents]

/-- WRITE stores its payload at the offset and is answered by R1, placeholders and the token 0x05. -/
theorem exchanges_write {s : State} {a : BitVec 32} {d : List Byte} (h : SelectedIdle s) (hlen : d.length = 512)
    (hr : inRange s.cfg a = true) :
    ∃ t, Exchanges s (writeBytes a d) (List.replicate 6 fillerByte ++ [0x00] ++ [fillerByte] ++
        List.replicate 512 fillerByte ++ [dataAccepted, dataAccepted] ++ [dataAccepted]) t ∧
      SelectedIdle t ∧ t.cfg = s.cfg ∧ t.store = storeBytes s.cfg.initialImage s.store a.toNat d := by
  have hcmd := exchanges_cmd24 h hr
  have hr1 := hcmd.append (exchanges_queued h.csSel rfl (by decide) (by decide))
  have htoken := hr1.append (exchanges_token h.csSel rfl)
  have hfit : a.toNat + d.length ≤ s.cfg.capacity := by
    rw [hlen]
    exact inRange_iff.1 hr
  have hdata := htoken.append (exchanges_writtenBytes (d := d) h.csSel rfl ((Nat.zero_add _).trans hlen) hfit)
  have hcrc := hdata.append (exchanges_writeCrc h.csSel rfl rfl rfl)
  have hanswer := hcrc.append (exchanges_queued h.csSel rfl (by decide) (by decide))
  rw [hlen] at hanswer
  exact ⟨_, hanswer, ⟨h.csSel, rfl, rfl⟩, rfl, rfl⟩

/-- The MOSI bytes of `READ(a)` (30_encoding.md R84). -/
def readBytes (a : BitVec 32) : List Byte := commandBytes 17 a ++ List.replicate 516 fillerByte

theorem readEvents_eq_rawEvents (a : BitVec 32) : readEvents a = rawEvents (readBytes a) :=
  List.map_append.symm

/-- What a READ of the block `d` is answered by: without READ_R1_PREFIX (decision D5) its last filler is idle. -/
def readAnswer (prefixed : Bool) (d : List Byte) : List Byte :=
  List.replicate 6 fillerByte ++ (Response.readPreamble prefixed).bytes ++ d ++
    (Response.crcTrailer (crc16Of d)).bytes ++ if prefixed then [] else [fillerByte]

/-- READ streams the store from the offset on, with its CRC, and changes nothing in it. -/
theorem exchanges_read {s : State} {a : BitVec 32} {d : List Byte} (h : SelectedIdle s) (hlen : d.length = 512)
    (hr : inRange s.cfg a = true) (hread : ∀ k, k < 512 → s.memRead (a.toNat + k) = d[k]?) :
    ∃ t, Exchanges s (readBytes a) (readAnswer s.cfg.readR1Prefix d) t ∧ SelectedIdle t ∧ t.cfg = s.cfg ∧
      t.store = s.store := by
  have hcmd := exchanges_cmd17 h hr
  have hpreamble := hcmd.append (exchanges_queued h.csSel rfl (by decide) (by decide))
  have hblock := hpreamble.append
    (exchanges_readBytes (d := d) h.csSel rfl ((Nat.zero_add _).trans hlen) (by rw [hlen]; exact hread))
  have htrailer := hblock.append (exchanges_queued h.csSel rfl (by decide) (by decide))
  rw [hlen] at htrailer
  have hfill (j k : Nat) : commandBytes 17 a ++ List.replicate j fillerByte ++ List.replicate 512 fillerByte ++
      List.replicate k fillerByte = commandBytes 17 a ++ List.replicate (j + 512 + k) fillerByte := by
    simp only [List.append_assoc, List.replicate_append_replicate, Nat.add_assoc]
  rw [hfill] at htrailer
  cases hpre : s.cfg.readR1Prefix with
  | true =>
    rw [hpre] at htrailer
    rw [readAnswer, if_pos rfl, List.append_nil]
    exact ⟨_, htrailer, ⟨h.csSel, rfl, rfl⟩, rfl, rfl⟩
  | false =>
    rw [hpre] at htrailer
    have hidle := htrailer.append (exchanges_filler h.csSel rfl rfl)
    rw [List.append_assoc, ← List.replicate_succ'] at hidle
    exact ⟨_, hidle, ⟨h.csSel, rfl, rfl⟩, rfl, rfl⟩

/-! ### The round trip -/

/-- Settles O53: the write stores the payload (`exchanges_write`), so the read streams it (`exchanges_read`). -/
theorem writeThenReadReturnsThePayload : Obligations.WriteThenReadReturnsThePayload := by
  intro s a d rest hinv hp h0 hcs hlen hcap hin
  have hr : inRange s.cfg a = true := inRange_iff.2 hcap
  obtain ⟨u, hwrite, hu, hucfg, hustore⟩ := exchanges_write ⟨hcs, hp, Fin.ext h0⟩ hlen hr
  have hread (k : Nat) (hk : k < 512) : u.memRead (a.toNat + k) = d[k]? := by
    have hk' : k < d.length := hlen ▸ hk
    have hlt : a.toNat + k < u.cfg.capacity := by rw [hucfg]; omega
    rw [memRead_of_lt hlt, hucfg, hustore, read_storeBytes hinv.store_wf hk', List.getElem?_eq_getElem hk']
  obtain ⟨t, hanswer, ht, htcfg, htstore⟩ := exchanges_read hu hlen (hucfg ▸ hr) hread
  have hboth := hwrite.append hanswer rest s.miso
  have hevents : writeEvents a d ++ readEvents a = rawEvents (writeBytes a d ++ readBytes a) := by
    rw [writeEvents_eq_rawEvents, readEvents_eq_rawEvents]
    exact List.map_append.symm
  have hs : s.withPorts (rawEvents (writeBytes a d ++ readBytes a) ++ rest) s.miso = s := by
    rw [← hevents, ← hin]
    rfl
  rw [hs] at hboth
  rw [hevents, rawEvents, List.length_map]
  refine ⟨_, hboth, ?_, ht.phase, congrArg Fin.val ht.cmdLen, rfl, fun k hk => ?_⟩
  · rw [hucfg, readAnswer, List.append_assoc s.miso]
    simp only [State.withPorts, List.append_assoc]
    rfl
  · exact (memRead_congr htcfg htstore _).trans (hread k hk)

end Sys2Proof
end

section
/-! PROOFS. The byte engine's rows: which row a MOSI byte is, and what each row does when it runs
(40_byte_engine.md R101 to R107). -/

namespace Sys2Proof

open Sys2Proof.Machine

/-! ### The row of a byte -/

theorem decodeByte_writeStbt {c : DecodeCtx} (hp : c.phase = .writeStbt) (b : Byte) :
    decodeByte c b = if b = startToken then .startBlockToken else .discardedByte b := by
  rw [decodeByte, hp]

theorem decodeByte_writeListen {c : DecodeCtx} (hp : c.phase = .writeListen) (b : Byte) :
    decodeByte c b = .writeDataByte b := by
  rw [decodeByte, hp]

theorem decodeByte_writeCrc {c : DecodeCtx} (hp : c.phase = .writeCrc) (b : Byte) :
    decodeByte c b = if c.wcrcIdx = 0 then .writeCrcByte0 b else .writeCrcByte1 b := by
  rw [decodeByte, hp]

/-- Settles O9: the clauses are the rows of the byte decoder, with its test decided where it makes one. -/
theorem byteMeaningOfEveryPhase : Obligations.ByteMeaningOfEveryPhase := by
  intro c b
  exact ⟨fun hp => decodeByte_frameByte hp b,
    fun hp hb => (decodeByte_writeStbt hp b).trans (if_pos hb),
    fun hp hb => (decodeByte_writeStbt hp b).trans (if_neg hb),
    fun hp => decodeByte_writeListen hp b,
    fun hp hi => (decodeByte_writeCrc hp b).trans (if_pos hi),
    fun hp hi => (decodeByte_writeCrc hp b).trans (if_neg (by simp [hi])),
    fun hp hb => (decodeByte_tx hp b).trans (if_pos hb),
    fun hp hb => (decodeByte_tx hp b).trans (if_neg hb)⟩

/-! ### Frame bytes -/

/-- The sixth byte of a frame runs the instruction the captured frame decodes to. -/
theorem exec_frameByte_sixth {s : State} {b : Byte} {i : Instr} (hp : s.phase.isCommand = true)
    (h5 : s.cmdLen.val = 5) (hi : decodeFrame s.decodeCtx (frameOfBytes (s.cmdBuf.set 5 b)) = .ok i) :
    exec (.frameByte b) s =
      andThen (exec i { s with cmdBuf := s.cmdBuf.set 5 b }) fun t => .next { t with cmdLen := 0 } :=
  (accept_frameByte hp b).symm.trans (accept_sixth hp h5 rfl hi)

/-- Settles O10: the three clauses are the three branches of a frame byte, and every completed frame decodes. -/
theorem frameByteAssemblesAndDispatches : Obligations.FrameByteAssemblesAndDispatches := by
  intro s b hp
  refine ⟨fun h0 hb => execFrameByte_filler (Fin.ext h0) hb, fun n _ hfill hn => ?_, fun h5 => ?_⟩
  · exact execFrameByte_capture (fun h => hfill ⟨congrArg Fin.val h.1, h.2⟩) n hn
  · obtain ⟨i, hi⟩ := decodeFrame_total (c := s.decodeCtx) (frameOfBytes (s.cmdBuf.set 5 b)) hp
    refine ⟨i, decodeFrame_format hi, hi, (exec_frameByte_sixth hp h5 hi).trans ?_⟩
    generalize exec i _ = o
    cases o <;> rfl

/-- The commands that can be refused: CMD18 and CMD25 (41_commands.md R140, R142, decision D14). -/
def Instr.isMultiBlock : Instr → Bool
  | .cmd18 _ | .cmd25 _ => true
  | _ => false

/-- Only the indexes 18 and 25 in IDLE are multi-block commands. -/
theorem isMultiBlock_iff {c : DecodeCtx} {w : FrameWord} {i : Instr} (h : decodeFrame c w = .ok i) :
    i.isMultiBlock = true ↔ c.phase = .idle ∧ (frameIndex w = 18 ∨ frameIndex w = 25) := by
  cases hp : c.phase
  case boot | spi | spiAcmd | idleAcmd =>
    simp only [decodeFrame, hp] at h
    cases h
    split_ifs <;> simp [Instr.isMultiBlock]
  case idle =>
    rw [decodeFrame_idle hp] at h
    cases h
    unfold decodeIdle
    split_ifs <;> simp_all [Instr.isMultiBlock]
  case cmdResponse | readBlock | writeStbt | writeListen | writeCrc =>
    rw [decodeFrame_of_not_isCommand (by rw [hp]; rfl)] at h
    exact nomatch h

/-- A command runs unless it is a multi-block command and MULTI_BLOCK_MODE is REFUSE. -/
theorem exec_command_completes {i : Instr} {s : State} (hfmt : i.format = .commandFrame48)
    (hmode : i.isMultiBlock = true → s.cfg.multiBlockMode = .single) : ∃ t, exec i s = .next t := by
  cases i
  case cmd18 f => exact ⟨startRead f.arg true s, by rw [exec, execCmd18, hmode rfl]⟩
  case cmd25 f => exact ⟨startWrite f.arg true s, by rw [exec, execCmd25, hmode rfl]⟩
  case cmd0 | illegalBoot | cmd55 | illegalSpi | acmd41 | illegalSpiAcmd | illegalIdleAcmd | cmd17 | cmd24 | cmd13
      | cmd55Idle | cmd58 | illegalIdle => exact ⟨_, rfl⟩
  all_goals exact nomatch hfmt

theorem exec_multiBlock_refused {i : Instr} {s : State} (hi : i.isMultiBlock = true)
    (hmode : s.cfg.multiBlockMode = .refuse) : exec i s = .refused .multiBlockRefused := by
  cases i
  case cmd18 f => rw [exec, execCmd18, hmode]
  case cmd25 f => rw [exec, execCmd25, hmode]
  all_goals exact nomatch hi

@[simp] theorem startRead_phase (arg : BitVec 32) (multi : Bool) (s : State) :
    (startRead arg multi s).phase = .cmdResponse := by
  cases hr : inRange s.cfg arg with
  | true => rw [startRead_inRange multi hr]; rfl
  | false => rw [startRead_outOfRange multi hr]; rfl

@[simp] theorem startWrite_phase (arg : BitVec 32) (multi : Bool) (s : State) :
    (startWrite arg multi s).phase = .cmdResponse := by
  cases hr : inRange s.cfg arg with
  | true => rw [startWrite_inRange multi hr]; rfl
  | false => rw [startWrite_outOfRange multi hr]; rfl

/-- Every command that runs queues a response. -/
theorem runCommand_phase {i : Instr} {s t : State} (h : runCommand i s = .next t) : t.phase = .cmdResponse := by
  obtain rfl | ⟨r, next, -, rfl⟩ | ⟨arg, multi, rfl⟩ | ⟨arg, multi, rfl⟩ := runCommand_cases h
  · rfl
  · rfl
  · exact startRead_phase arg multi s
  · exact startWrite_phase arg multi s

/-- A frame's index stands in its first byte, which the sixth byte does not change. -/
theorem frameIndex_set_sixth (v : Vector Byte 6) (b : Byte) :
    frameIndex (frameOfBytes (v.set 5 b)) = (v[0]).extractLsb' 0 6 := by
  obtain ⟨hindex, -⟩ := frameFieldsOfBytes (v.set 5 b)
  rw [hindex, Vector.getElem_set_ne _ _ (by decide)]

/-- The frame that a sixth byte completes is a refused multi-block command exactly if its first five bytes
said so. -/
theorem awaitsRefusedFrame_iff {s : State} {b : Byte} {i : Instr} (h5 : s.cmdLen.val = 5)
    (hi : decodeFrame s.decodeCtx (frameOfBytes (s.cmdBuf.set 5 b)) = .ok i) :
    AwaitsRefusedFrame s ↔ s.cfg.multiBlockMode = .refuse ∧ i.isMultiBlock = true := by
  rw [isMultiBlock_iff hi, frameIndex_set_sixth]
  simp [AwaitsRefusedFrame, h5]

/-- Settles O11: only the dispatch of a sixth byte can fail, and it does so for the refused multi-block commands. -/
theorem frameByteCompletesUnlessRefused : Obligations.FrameByteCompletesUnlessRefused := by
  intro s b hp
  by_cases h5 : s.cmdLen.val = 5
  · obtain ⟨i, hi⟩ := decodeFrame_total (c := s.decodeCtx) (frameOfBytes (s.cmdBuf.set 5 b)) hp
    have hfmt := decodeFrame_format hi
    rw [exec_frameByte_sixth hp h5 hi, awaitsRefusedFrame_iff h5 hi]
    refine ⟨fun hnot => ?_, fun ⟨hmode, hmulti⟩ => ?_⟩
    · have hsingle (hmulti : i.isMultiBlock = true) : s.cfg.multiBlockMode = .single := by
        cases hmode : s.cfg.multiBlockMode with
        | single => rfl
        | refuse => exact absurd ⟨hmode, hmulti⟩ hnot
      obtain ⟨t, ht⟩ := exec_command_completes (s := { s with cmdBuf := s.cmdBuf.set 5 b }) hfmt hsingle
      have hphase := runCommand_phase ((runCommand_eq_exec hfmt _).trans ht)
      rw [ht]
      exact ⟨_, rfl, fun _ => hphase⟩
    · have hrefused := exec_multiBlock_refused (s := { s with cmdBuf := s.cmdBuf.set 5 b }) hmulti hmode
      rw [hrefused]
      rfl
  · refine ⟨fun _ => ?_, fun ⟨_, _, hlen, _⟩ => absurd hlen h5⟩
    by_cases hfill : s.cmdLen = 0 ∧ b = fillerByte
    · exact ⟨s, execFrameByte_filler hfill.1 hfill.2, fun h => absurd h h5⟩
    · have hn : s.cmdLen.val + 1 < 6 := by omega
      exact ⟨_, execFrameByte_capture hfill ⟨s.cmdLen.val + 1, hn⟩ rfl, fun h => absurd h h5⟩

/-! ### Bytes of a written block -/

/-- Settles O22: the token's row writes three registers, the discarded byte's none. -/
theorem startTokenOpensTheBlock : Obligations.StartTokenOpensTheBlock := by
  intro s b
  exact ⟨⟨_, rfl, rfl, fun _ => rfl⟩, rfl⟩

/-- Settles O23: a data byte's two rows give the registers, and the law of the write gives every address. -/
theorem writeDataByteStoresAtHead : Obligations.WriteDataByteStoresAtHead := by
  intro s b hlt hwf
  by_cases hlast : s.blkCount.val = 511
  · have ht := execWriteDataByte_last b hlt hlast
    have hread := execWriteDataByte_memRead hwf ht
    exact ⟨_, ht, (hread _).trans (if_pos rfl), fun a ha => (hread a).trans (if_neg ha), rfl, rfl,
      fun _ => ⟨rfl, rfl, rfl, rfl⟩, fun hne => absurd hlast hne, rfl⟩
  · have hn : s.blkCount.val + 1 < 512 := by omega
    have ht := execWriteDataByte_more b hlt ⟨s.blkCount.val + 1, hn⟩ rfl
    have hread := execWriteDataByte_memRead hwf ht
    exact ⟨_, ht, (hread _).trans (if_pos rfl), fun a ha => (hread a).trans (if_neg ha), rfl, rfl,
      fun h => absurd h hlast, fun _ => ⟨rfl, rfl, rfl, rfl⟩, rfl⟩

/-- Under CRC_ENFORCE a wrong write-CRC byte clears the verdict. -/
theorem wcrcOkAfter_of_ne {s : State} {expected b : Byte} (henforce : s.cfg.crcEnforce = true) (hb : b ≠ expected) :
    s.wcrcOkAfter expected b = false := by
  simp [State.wcrcOkAfter, wcrcByteOk, henforce, hb]

/-- A write-CRC byte that is not checked or is the expected one keeps the verdict. -/
theorem wcrcOkAfter_of_passes {s : State} {expected b : Byte} (h : s.cfg.crcEnforce = false ∨ b = expected) :
    s.wcrcOkAfter expected b = s.wcrcOk := by
  obtain h | h := h <;> simp [State.wcrcOkAfter, wcrcByteOk, h]

/-- Settles O24: the row gives the verdict after the CRC's low byte. -/
theorem firstCrcByteChecksTheLowHalf : Obligations.FirstCrcByteChecksTheLowHalf := by
  intro s b
  exact ⟨_, rfl, wcrcOkAfter_of_ne, wcrcOkAfter_of_passes, rfl, rfl, fun _ => rfl⟩

/-- The token of a verdict that is known. -/
theorem queue_dataResponse_queued {ok accepted : Bool} (h : ok = accepted) (s : State) :
    Queued s (queue (.dataResponse ok) .idle s) (Response.dataResponse accepted).bytes .idle :=
  h ▸ queue_queued _ _ _

/-- Settles O25: the row gives the verdict after the CRC's high byte and queues the token the verdict chooses. -/
theorem secondCrcByteQueuesTheToken : Obligations.SecondCrcByteQueuesTheToken := by
  intro s b
  exact ⟨_, { s with wcrcOk := s.wcrcOkAfter (crcHigh s.crc16) b, wcrcIdx := 0 }, rfl, wcrcOkAfter_of_ne,
    wcrcOkAfter_of_passes, rfl, rfl, fun h => queue_dataResponse_queued h _,
    fun h => queue_dataResponse_queued h _, queue_responseOnly _ _ _, fun _ => rfl⟩

/-! ### Bytes while the engine transmits -/

/-- Settles O27: a violation is a full reset. -/
theorem bytesWhileTransmitting : Obligations.BytesWhileTransmitting := by
  intro s b
  exact ⟨rfl, fullReset s, rfl, fullReset_protocolReset s, fullReset_frame s⟩

end Sys2Proof
end

section
/-! PROOFS. Produce: the byte it sends in each phase, and that an exchange's MISO byte is Produce's alone
(40_byte_engine.md R108 to R113). -/

namespace Sys2Proof

open Sys2Proof.Machine

/-- With nothing left to send, no byte is queued. -/
theorem pending_eq_nil {s : State} (h : s.respLen.val ≤ s.respIdx.val) : State.pending s = [] :=
  List.drop_of_length_le ((List.length_take_le _ _).trans h)

/-- Settles O28: the first byte still to send is the one at `resp_idx`; it is the last exactly if the next index is
`resp_len`. -/
theorem produceSendsTheQueuedByte : Obligations.ProduceSendsTheQueuedByte := by
  intro s x more hp hpending
  have hlt : s.respIdx.val < s.respLen.val := by
    by_contra hge
    simp [pending_eq_nil (Nat.not_lt.1 hge)] at hpending
  obtain ⟨rfl, htail⟩ := List.cons.inj ((pending_eq_cons hlt).symm.trans hpending)
  rw [produce_cmdResponse hp]
  by_cases hlast : s.respIdx.val + 1 = s.respLen.val
  · have hnil : more = [] := by
      rw [← htail, hlast]
      exact List.drop_of_length_le (List.length_take_le _ _)
    exact ⟨_, produceResponse_last hlast, fun hne => absurd hnil hne, fun _ => ⟨rfl, rfl, rfl⟩, rfl⟩
  · have hmore : s.respIdx.val + 1 < s.respLen.val := by omega
    have hidx : s.respIdx.val + 1 < 5 := by omega
    have hne : more ≠ [] := by
      have hcons := pending_eq_cons (s := { s with respIdx := ⟨s.respIdx.val + 1, hidx⟩ }) hmore
      rw [← htail]
      exact List.ne_nil_of_mem (hcons ▸ List.mem_cons_self)
    exact ⟨_, produceResponse_more ⟨s.respIdx.val + 1, hidx⟩ rfl hmore, fun _ => ⟨hp, htail, rfl, rfl⟩,
      fun hnil => absurd hnil hne, rfl⟩

/-- Settles O29: Produce's two rows in READ_BLOCK, with the trailer queued after the 512th byte. -/
theorem produceStreamsTheStore : Obligations.ProduceStreamsTheStore := by
  intro s hp hlt
  have hread := memRead_of_lt hlt
  by_cases hlast : s.blkCount.val = 511
  · have hproduce := (produce_readBlock hp).trans (produceBlockByte_last hread hlast)
    exact ⟨_, _, _, hread, hproduce, fun hne => absurd hlast hne,
      fun _ => ⟨rfl, queue_responseOnly _ _ _, queue_queued _ _ _⟩, rfl, fun _ => rfl⟩
  · have hn : s.blkCount.val + 1 < 512 := by omega
    have hproduce := (produce_readBlock hp).trans (produceBlockByte_more hread ⟨s.blkCount.val + 1, hn⟩ rfl)
    exact ⟨_, _, _, hread, hproduce, fun _ => ⟨rfl, rfl⟩, fun h => absurd h hlast, rfl, fun _ => rfl⟩

/-- Settles O30: the placeholder is the token 0x05. -/
theorem producePlaceholderWhileCrcArrives : Obligations.ProducePlaceholderWhileCrcArrives :=
  fun _ hp => produce_writeCrc hp

/-- Settles O31: none of the listed phases is one in which Produce does more than answer filler. -/
theorem produceIsFillerElsewhere : Obligations.ProduceIsFillerElsewhere := by
  intro s hp
  have hne {p : Phase} (h : p ∉ [Phase.boot, .spi, .spiAcmd, .idle, .idleAcmd, .writeStbt, .writeListen]) :
      s.phase ≠ p := fun e => h (e ▸ hp)
  exact produce_filler (hne (by decide)) (hne (by decide)) (hne (by decide))

/-- Accept sends nothing: `accept_withPorts` with the ports it started from. -/
theorem accept_miso {s t : State} {b : Byte} (h : accept b s = .next t) : t.miso = s.miso := by
  have hports : accept b s = .next (t.withPorts s.inputs s.miso) := accept_withPorts h
  have hself : t = t.withPorts s.inputs s.miso := Host.Outcome.next.inj (h.symm.trans hports)
  have hmiso := congrArg State.miso hself
  exact hmiso

/-- Settles O32: Produce's byte is emitted before the MOSI byte is looked at, and Accept sends nothing. -/
theorem misoIndependentOfMosi : Obligations.MisoIndependentOfMosi := by
  intro s t t' b b' h h'
  obtain ⟨hcs, rfl⟩ | ⟨hcs, out, u, hu, ht⟩ := execMosiByte_cases h
  · obtain ⟨-, rfl⟩ | ⟨hcs', -⟩ := execMosiByte_cases h'
    · rfl
    · simp [hcs] at hcs'
  · obtain ⟨hcs', -⟩ | ⟨-, out', u', hu', ht'⟩ := execMosiByte_cases h'
    · simp [hcs] at hcs'
    · obtain ⟨rfl, rfl⟩ : out = out' ∧ u = u' := by simpa [hu] using hu'
      exact (accept_miso ht).trans (accept_miso ht').symm

end Sys2Proof
end

section
/-! PROOFS. The transition table: Produce and Accept move the phase in its seven rows only (40_byte_engine.md R114). -/

namespace Sys2Proof

open Sys2Proof.Machine

/-- Settles O46, by the cases of Produce: every other case keeps the phase. -/
theorem producePhaseMoves : Obligations.ProducePhaseMoves := by
  intro s t out h hne
  obtain ⟨hp, h⟩ | ⟨hp, h⟩ | ⟨-, -, rfl⟩ | ⟨-, -, -, -, rfl⟩ := produce_cases h
  · obtain ⟨-, -, ⟨hlast, rfl⟩ | ⟨n, -, -, rfl⟩⟩ := produceResponse_cases h
    · exact .inl ⟨hp, hlast, rfl⟩
    · exact absurd rfl hne
  · obtain ⟨-, ⟨hlast, rfl⟩ | ⟨n, -, rfl⟩⟩ := produceBlockByte_cases h
    · exact .inr ⟨hp, hlast, rfl⟩
    · exact absurd rfl hne
  · exact absurd rfl hne
  · exact absurd rfl hne

/-- A frame byte moves the phase only as the sixth, whose command queues a response. -/
theorem execFrameByte_phase_moves {s t : State} {b : Byte} (h : execFrameByte b s = .next t)
    (hne : t.phase ≠ s.phase) : s.cmdLen.val = 5 ∧ t.phase = .cmdResponse := by
  obtain ⟨-, -, rfl⟩ | ⟨n, -, rfl⟩ | ⟨h5, u, hu, rfl⟩ := execFrameByte_cases h
  · exact absurd rfl hne
  · exact absurd rfl hne
  · obtain ⟨i, -, hrun⟩ := dispatchFrame_eq_next hu
    have hphase := runCommand_phase hrun
    exact ⟨h5, hphase⟩

/-- A data byte moves the phase only as the 512th. -/
theorem execWriteDataByte_phase_moves {s t : State} {b : Byte} (h : execWriteDataByte b s = .next t)
    (hne : t.phase ≠ s.phase) : s.blkCount.val = 511 ∧ t.phase = .writeCrc := by
  obtain ⟨-, ⟨hlast, rfl⟩ | ⟨n, -, rfl⟩⟩ := execWriteDataByte_cases h
  · exact ⟨hlast, rfl⟩
  · exact absurd rfl hne

/-- Settles O47, by the cases of Accept. -/
theorem acceptPhaseMoves : Obligations.AcceptPhaseMoves := by
  intro s t b h hne
  obtain ⟨hp, h⟩ | ⟨hp, hb, rfl⟩ | ⟨-, -, rfl⟩ | ⟨hp, h⟩ | ⟨-, -, rfl⟩ | ⟨hp, hi, rfl⟩ | ⟨-, -, rfl⟩ |
    ⟨hp, hb, rfl⟩ := accept_cases h
  · exact .inl ⟨hp, execFrameByte_phase_moves h hne⟩
  · exact .inr (.inl ⟨hp, hb, rfl⟩)
  · exact absurd rfl hne
  · exact .inr (.inr (.inl ⟨hp, execWriteDataByte_phase_moves h hne⟩))
  · exact absurd rfl hne
  · exact .inr (.inr (.inr (.inl ⟨hp, by omega, rfl⟩)))
  · exact absurd rfl hne
  · exact .inr (.inr (.inr (.inr ⟨hp, hb, rfl⟩)))

end Sys2Proof
end

section
/-! PROOFS. Whole blocks: 512 exchanges store a written block or stream a read block (40_byte_engine.md R104, R110). -/

namespace Sys2Proof

open Sys2Proof.Machine

/-- A run of exchanges on the ports the state itself has. -/
theorem Exchanges.runSteps_eq {s t : State} {mosi miso : List Byte} {rest : List PortEvent}
    (h : Exchanges s mosi miso t) (hin : s.inputs = mosi.map PortEvent.mosi ++ rest) :
    runSteps mosi.length s = .next (t.withPorts rest (s.miso ++ miso)) := by
  have hs : s.withPorts (rawEvents mosi ++ rest) s.miso = s := by
    rw [rawEvents, ← hin]
    rfl
  exact hs ▸ h rest s.miso

/-- An address outside a written block reads as before. -/
theorem memRead_afterWrittenBytes_outside {s : State} {d : List Byte} {a : Nat}
    (hwf : Memory.wf s.cfg.initialImage s.store = true) (ha : a < s.head ∨ s.head + d.length ≤ a) :
    (afterWrittenBytes d s).memRead a = s.memRead a := by
  simp only [State.memRead, afterWrittenBytes, read_storeBytes_outside hwf ha]

/-- A written block is read back. -/
theorem memRead_afterWrittenBytes {s : State} {d : List Byte} {k : Nat}
    (hwf : Memory.wf s.cfg.initialImage s.store = true) (hfit : s.head + d.length ≤ s.cfg.capacity)
    (hk : k < d.length) : (afterWrittenBytes d s).memRead (s.head + k) = d[k]? := by
  have hlt : s.head + k < (afterWrittenBytes d s).cfg.capacity := lt_of_lt_of_le (Nat.add_lt_add_left hk _) hfit
  rw [memRead_of_lt hlt, List.getElem?_eq_getElem hk]
  exact congrArg some (read_storeBytes hwf hk)

/-- Settles O51: `exchanges_writtenBytes` says what the 512 bytes lead to. -/
theorem writtenBlockIsStored : Obligations.WrittenBlockIsStored := by
  intro s d rest hlen hp h0 hcs hfit hwf hin
  have hcount : s.blkCount.val + d.length = 512 := by rw [h0, Nat.zero_add, hlen]
  rw [← hlen] at hfit
  have hrun := (exchanges_writtenBytes hcs hp hcount hfit).runSteps_eq hin
  have hstored : ∀ k, k < d.length → (afterWrittenBytes d s).memRead (s.head + k) = d[k]? :=
    fun _ hk => memRead_afterWrittenBytes hwf hfit hk
  have hkept : ∀ a, a < s.head ∨ s.head + d.length ≤ a → (afterWrittenBytes d s).memRead a = s.memRead a :=
    fun _ ha => memRead_afterWrittenBytes_outside hwf ha
  rw [hlen] at hrun hstored hkept
  refine ⟨_, hrun, hstored, hkept, rfl, congrArg (s.head + ·) hlen, rfl, rfl, rfl, rfl, rfl, ?_⟩
  rw [show s.blkCount = 0 from Fin.ext h0]
  rfl

/-- Settles O52: `exchanges_readBytes` says what the 512 fillers are answered by, and the trailer is what is queued. -/
theorem readBlockStreamsTheStore : Obligations.ReadBlockStreamsTheStore := by
  intro s d rest hlen hp h0 hcs hread hin
  have hcount : s.blkCount.val + d.length = 512 := by rw [h0, Nat.zero_add, hlen]
  have hblock := exchanges_readBytes hcs hp hcount (by rwa [hlen])
  rw [hlen] at hblock
  have hrun := hblock.runSteps_eq hin
  rw [List.length_replicate] at hrun
  have hpending : State.pending (afterReadBytes d s) = (Response.crcTrailer (crc16Fold s.crc16 d)).bytes :=
    pending_queue _ _ _
  exact ⟨_, hrun, rfl, rfl, congrArg (s.head + ·) hlen, rfl, rfl, rfl, hpending, rfl, rfl⟩

end Sys2Proof
end

section
/-! PROOFS. The command frames: each command's response, the phase it returns to, and what it leaves alone
(41_commands.md R132, R134, R136, R139 to R145). -/

namespace Sys2Proof

open Sys2Proof.Machine

/-! ### Commands that only answer -/

/-- A meaning that queues a response and does nothing else. -/
theorem answers_of_eq_queue {o : Host.Outcome State Fault Refusal} {r : Response} {next : Phase} {s : State}
    (h : o = .next (queue r next s)) : ∃ t, o = .next t ∧ Queued s t r.bytes next ∧ ResponseOnly s t :=
  ⟨_, h, queue_queued r next s, queue_responseOnly r next s⟩

/-- Settles O12: `decodeFrame_cmd0` gives the frame's row, and the row queues the idle R1 on the state FullReset
leaves. -/
theorem cmd0ResetsAndAnswersIdle : Obligations.Cmd0ResetsAndAnswersIdle := by
  refine ⟨fun c w hp hnot h0 => decodeFrame_cmd0 hp (fun hphase hmode => hnot ⟨hphase, hmode⟩) h0, fun s f => ?_⟩
  exact ⟨_, fullReset s, rfl, fullReset_protocolReset s, fullReset_frame s, queue_queued .r1Idle .spi _,
    queue_responseOnly .r1Idle .spi _⟩

/-- Settles O14: index 55 is a row of its own in SPI and in IDLE, and each row only answers. -/
theorem cmd55EntersTheAcmdPhase : Obligations.Cmd55EntersTheAcmdPhase := by
  refine ⟨fun c w hidx => ⟨fun hp => ?_, fun hp => ?_⟩, fun s f => ⟨?_, ?_⟩⟩
  · rw [decodeFrame_spi hp, hidx]
    rfl
  · rw [decodeFrame_idle hp, hidx]
    rfl
  · exact answers_of_eq_queue (r := .r1Idle) rfl
  · exact answers_of_eq_queue (r := .r1Ready) rfl

/-- Settles O15: the three rows only answer, with R1, R2 and R3. -/
theorem initStatusAndOcrAnswers : Obligations.InitStatusAndOcrAnswers := by
  intro s f
  exact ⟨answers_of_eq_queue (r := .r1Ready) rfl, answers_of_eq_queue (r := .r2Status) rfl,
    answers_of_eq_queue (r := .r3Ocr s.cfg.ocrValue) rfl⟩

/-! ### Block commands -/

theorem inRange_eq_false {c : Config} {arg : BitVec 32} (h : c.capacity < arg.toNat + 512) :
    inRange c arg = false :=
  decide_eq_false (Nat.not_le.2 h)

/-- CMD18 under SINGLE starts a read that has `multi` set (decision D14). -/
theorem execCmd18_single {s : State} (f : FrameFields) (hmode : s.cfg.multiBlockMode = .single) :
    execCmd18 f s = .next (startRead f.arg true s) := by
  rw [execCmd18, hmode]

/-- CMD25 under SINGLE starts a write that has `multi` set (decision D14). -/
theorem execCmd25_single {s : State} (f : FrameFields) (hmode : s.cfg.multiBlockMode = .single) :
    execCmd25 f s = .next (startWrite f.arg true s) := by
  rw [execCmd25, hmode]

/-- A meaning that is a read in range: the preamble is queued on the state prepared for the block. -/
theorem startsRead_of_inRange {o : Host.Outcome State Fault Refusal} {arg : BitVec 32} {multi : Bool} {s : State}
    (ho : o = .next (startRead arg multi s)) (hfit : arg.toNat + 512 ≤ s.cfg.capacity) :
    ∃ t u, o = .next t ∧ u = { s with head := arg.toNat, multi := multi, crc16 := 0xFFFF, blkCount := 0 } ∧
      Queued u t (if s.cfg.readR1Prefix then [0x00, 0xFE] else [0xFE]) .readBlock ∧ ResponseOnly u t := by
  rw [startRead_inRange multi (inRange_iff.2 hfit)] at ho
  exact ⟨_, _, ho, rfl, queue_queued (.readPreamble s.cfg.readR1Prefix) _ _, queue_responseOnly _ _ _⟩

/-- A meaning that is a write in range: R1 is queued on the state with the cursor at the block. -/
theorem startsWrite_of_inRange {o : Host.Outcome State Fault Refusal} {arg : BitVec 32} {multi : Bool} {s : State}
    (ho : o = .next (startWrite arg multi s)) (hfit : arg.toNat + 512 ≤ s.cfg.capacity) :
    ∃ t u, o = .next t ∧ u = { s with head := arg.toNat, multi := multi } ∧
      Queued u t [0x00] .writeStbt ∧ ResponseOnly u t := by
  rw [startWrite_inRange multi (inRange_iff.2 hfit)] at ho
  exact ⟨_, _, ho, rfl, queue_queued .r1Ready _ _, queue_responseOnly _ _ _⟩

/-- A meaning that is a write out of range: the address error is queued on the state as it was. -/
theorem startsWrite_of_outOfRange {o : Host.Outcome State Fault Refusal} {arg : BitVec 32} {multi : Bool} {s : State}
    (ho : o = .next (startWrite arg multi s)) (hover : s.cfg.capacity < arg.toNat + 512) :
    ∃ t, o = .next t ∧ Queued s t [0x20] .idle ∧ ResponseOnly s t := by
  rw [startWrite_outOfRange multi (inRange_eq_false hover)] at ho
  exact answers_of_eq_queue (r := .r1AddressError) ho

/-- Settles O16: both commands are a read, CMD18 with `multi` set. -/
theorem readCommandsStartABlock : Obligations.ReadCommandsStartABlock :=
  fun _ f hfit => ⟨startsRead_of_inRange rfl hfit,
    fun hmode => startsRead_of_inRange (execCmd18_single f hmode) hfit⟩

/-- Settles O17: CMD24 is a write, in range or out of range. -/
theorem singleBlockWriteChecksAndAwaitsTheToken : Obligations.SingleBlockWriteChecksAndAwaitsTheToken :=
  fun _ _ => ⟨startsWrite_of_inRange rfl, startsWrite_of_outOfRange rfl⟩

/-- Settles O18: CMD25 under SINGLE is a write with `multi` set. -/
theorem multiBlockWriteAwaitsTheToken : Obligations.MultiBlockWriteAwaitsTheToken :=
  fun _ f hfit hmode => startsWrite_of_inRange (execCmd25_single f hmode) hfit

/-- Settles O20: both commands are multi-block commands. -/
theorem multiBlockRefusedByConfiguration : Obligations.MultiBlockRefusedByConfiguration :=
  fun _ _ hmode => ⟨exec_multiBlock_refused rfl hmode, exec_multiBlock_refused rfl hmode⟩

end Sys2Proof
end

section
/-! PROOFS. The CRC engines (42_crc.md). One shift register of any width, fed bit by bit, is behind both engines. It is
linear over XOR, and its own top bits, fed back to it, shift it without the polynomial: so a byte fed to it acts as if
it were added to its top bits, which is why a table over one byte is enough. -/

namespace Sys2Proof

open Sys2Proof.Machine

/-! ### The shift register -/

/-- One bit into the CRC register of a polynomial (42_crc.md R162 and R167, for every width). -/
def crcBit {w : Nat} (poly c : BitVec w) (x : Bool) : BitVec w :=
  if (c.getLsbD (w - 1) ^^ x) then (c <<< 1) ^^^ poly else c <<< 1

/-- What a step adds to the shifted register: the polynomial, when the feedback bit is set. -/
def crcFeedback {w : Nat} (poly : BitVec w) (x : Bool) : BitVec w := if x then poly else 0

/-- One byte into the CRC register of a polynomial. -/
def crcByte {w : Nat} (poly c : BitVec w) (b : Byte) : BitVec w := (bitsMsbFirst b).foldl (crcBit poly) c

/-- The `n` top bits of a register, the topmost first. -/
def topBits {w : Nat} : Nat → BitVec w → List Bool
  | 0, _ => []
  | n + 1, c => c.getLsbD (w - 1) :: topBits n (c <<< 1)

theorem fold16Bitwise_eq_crcByte (c : BitVec 16) (b : Byte) : fold16Bitwise c b = crcByte crc16Poly c b := rfl

theorem fold7Bitwise_eq_crcByte (r : BitVec 7) (b : Byte) : fold7Bitwise r b = crcByte crc7Poly r b := rfl

theorem t7_eq_crcByte (x : Byte) : t7 x = crcByte crc7Poly 0 x := rfl

section
variable {w : Nat} (poly c d : BitVec w)

theorem crcBit_eq_xor (x : Bool) : crcBit poly c x = (c <<< 1) ^^^ crcFeedback poly (c.getLsbD (w - 1) ^^ x) := by
  rw [crcBit, crcFeedback]
  split <;> simp

theorem crcFeedback_xor (x y : Bool) : crcFeedback poly (x ^^ y) = crcFeedback poly x ^^^ crcFeedback poly y := by
  cases x <;> cases y <;> simp [crcFeedback]

/-- The register step is linear: the XOR of two registers and of their inputs steps to the XOR of the results. -/
theorem crcBit_xor (x y : Bool) : crcBit poly (c ^^^ d) (x ^^ y) = crcBit poly c x ^^^ crcBit poly d y := by
  simp only [crcBit_eq_xor, BitVec.getLsbD_xor, BitVec.shiftLeft_xor_distrib, crcFeedback_xor]
  ac_rfl

theorem crcByte_xor (a b : Byte) : crcByte poly (c ^^^ d) (a ^^^ b) = crcByte poly c a ^^^ crcByte poly d b := by
  simp only [crcByte, bitsMsbFirst, BitVec.getLsbD_xor, List.foldl_cons, List.foldl_nil, crcBit_xor]

/-- The register fed with its own top bit: the feedback cancels. -/
theorem crcBit_topBit : crcBit poly c (c.getLsbD (w - 1)) = c <<< 1 := by simp [crcBit]

theorem foldl_crcBit_topBits (n : Nat) : (topBits n c).foldl (crcBit poly) c = c <<< n := by
  induction n generalizing c with
  | zero => simp [topBits]
  | succ n ih => rw [topBits, List.foldl_cons, crcBit_topBit, ih, ← BitVec.shiftLeft_add, Nat.add_comm]

/-- A byte `b` into a register that has `top` as its top bits acts through `top ^^^ b` alone. -/
theorem crcByte_eq_shift_xor {top : Byte} (htop : bitsMsbFirst top = topBits 8 c) (b : Byte) :
    crcByte poly c b = (c <<< 8) ^^^ crcByte poly 0 (top ^^^ b) := by
  have hself : crcByte poly c top = c <<< 8 := by rw [crcByte, htop, foldl_crcBit_topBits]
  calc crcByte poly c b = crcByte poly (c ^^^ 0) (top ^^^ (top ^^^ b)) := by simp
    _ = (c <<< 8) ^^^ crcByte poly 0 (top ^^^ b) := by rw [crcByte_xor, hself]

end

/-! ### The table forms -/

theorem bitsMsbFirst_high (c : BitVec 16) : bitsMsbFirst ((c >>> 8).setWidth 8) = topBits 8 c := by
  simp [bitsMsbFirst, topBits]

/-- The top bits of a CRC7 register: its seven bits and a zero that follows them. -/
theorem bitsMsbFirst_shifted (r : BitVec 7) : bitsMsbFirst (r.setWidth 8 <<< 1) = topBits 8 r := by
  simp [bitsMsbFirst, topBits]

/-- A step of the generation of `T16` is a bit 0 into the register. -/
theorem t16Step_eq_crcBit (c : BitVec 16) : t16Step c = crcBit crc16Poly c false := by simp [t16Step, crcBit]

theorem t16_eq_crcByte_zero (i : Byte) : t16 i = crcByte crc16Poly (i.setWidth 16 <<< 8) 0 := by
  simp only [t16, t16Step_eq_crcBit]
  rfl

/-- `T16[i]` is the CRC of the single byte `i` from 0. -/
theorem t16_eq_crcByte (i : Byte) : t16 i = crcByte crc16Poly 0 i := by
  have htop : bitsMsbFirst i = topBits 8 (i.setWidth 16 <<< 8) := by simp [bitsMsbFirst, topBits]
  have hout : (i.setWidth 16 <<< 8) <<< 8 = 0#16 := by
    rw [← BitVec.shiftLeft_add, BitVec.shiftLeft_eq_zero (Nat.le_refl 16)]
  rw [t16_eq_crcByte_zero, crcByte_eq_shift_xor _ _ htop, hout]
  simp

/-- Settles O54: both forms are the byte added to the register's high byte, by `crcByte_eq_shift_xor`. -/
theorem fold16TableIsBitwise : Obligations.Fold16TableIsBitwise := fun c b => by
  rw [fold16Bitwise_eq_crcByte, crcByte_eq_shift_xor _ _ (bitsMsbFirst_high c), fold16, t16_eq_crcByte]

/-- Settles O55: as for CRC16, and the shift by eight empties the seven-bit register. -/
theorem fold7TableIsBitwise : Obligations.Fold7TableIsBitwise := fun r b => by
  have hout : r <<< 8 = 0 := BitVec.shiftLeft_eq_zero (by decide)
  rw [fold7Bitwise_eq_crcByte, crcByte_eq_shift_xor _ _ (bitsMsbFirst_shifted r), hout, fold7, t7_eq_crcByte]
  exact BitVec.zero_xor.symm

/-! ### Error detection -/

/-- A fold whose every step keeps different accumulators different keeps them different over the whole list. -/
theorem foldl_injective {α β : Type} {f : α → β → α} (hf : ∀ b, Function.Injective (f · b)) (l : List β) :
    Function.Injective (l.foldl f ·) := by
  induction l with
  | nil => exact Function.injective_id
  | cons b l ih => exact ih.comp (hf b)

theorem getLsbD_crcFeedback_zero {w : Nat} {poly : BitVec w} (hpoly : poly.getLsbD 0 = true) (x : Bool) :
    (crcFeedback poly x).getLsbD 0 = x := by
  cases x <;> simp [crcFeedback, hpoly]

/-- The last bit of the register after a step is the feedback bit, when the polynomial has the term 1. -/
theorem getLsbD_crcBit_zero {w : Nat} {poly : BitVec w} (hpoly : poly.getLsbD 0 = true) (c : BitVec w) (x : Bool) :
    (crcBit poly c x).getLsbD 0 = (c.getLsbD (w - 1) ^^ x) := by
  simp [crcBit_eq_xor, getLsbD_crcFeedback_zero hpoly]

/-- A register step loses nothing: the feedback is its last bit, and what is left is the shifted register. -/
theorem crcBit_injective {w : Nat} {poly : BitVec w} (hpoly : poly.getLsbD 0 = true) (x : Bool) :
    Function.Injective (crcBit poly · x) := fun c d (h : crcBit poly c x = crcBit poly d x) => by
  have htop : c.getLsbD (w - 1) = d.getLsbD (w - 1) := by
    simpa [getLsbD_crcBit_zero hpoly] using congrArg (BitVec.getLsbD · 0) h
  have hshift : c <<< 1 = d <<< 1 := by
    rw [crcBit_eq_xor, crcBit_eq_xor, htop] at h
    exact (BitVec.xor_left_inj _).1 h
  ext i hi
  rcases Nat.lt_or_ge (i + 1) w with hlt | hge
  · simpa [hlt] using congrArg (BitVec.getLsbD · (i + 1)) hshift
  · obtain rfl : i = w - 1 := by omega
    simpa [hi] using htop

theorem crcByte_crc16Poly_injective (b : Byte) : Function.Injective (crcByte crc16Poly · b) :=
  foldl_injective (crcBit_injective (by decide)) (bitsMsbFirst b)

/-- Different accumulators stay different under a byte. -/
theorem fold16_injective_acc (b : Byte) : Function.Injective (fold16 · b) := fun c d h => by
  simp only [fold16TableIsBitwise _ b, fold16Bitwise_eq_crcByte] at h
  exact crcByte_crc16Poly_injective b h

/-- `T16` has no value twice. -/
theorem t16_injective : Function.Injective t16 := fun i j h => by
  rw [t16_eq_crcByte_zero, t16_eq_crcByte_zero] at h
  have hhigh : i.setWidth 16 <<< 8 = (j.setWidth 16 <<< 8 : BitVec 16) := crcByte_crc16Poly_injective 0 h
  refine BitVec.eq_of_getLsbD_eq fun k hk => ?_
  have hin : k + 8 < 16 ∧ k < 16 := by omega
  simpa [hin] using congrArg (BitVec.getLsbD · (k + 8)) hhigh

/-- Different bytes leave one accumulator different. -/
theorem fold16_injective_byte (c : BitVec 16) : Function.Injective (fold16 c) := fun _ _ h =>
  (BitVec.xor_right_inj _).1 (t16_injective ((BitVec.xor_right_inj _).1 h))

/-- Settles O56: the changed byte leaves different accumulators, and the bytes that follow keep them different. -/
theorem crcDetectsAChangedByte : Obligations.CrcDetectsAChangedByte := fun pre post x y hxy h => by
  have hfold : post.foldl fold16 (fold16 (crc16Of pre) x) = post.foldl fold16 (fold16 (crc16Of pre) y) := by
    simpa [crc16Of, crc16Fold] using h
  exact hxy (fold16_injective_byte _ (foldl_injective fold16_injective_acc post hfold))

end Sys2Proof
end

section
/-! PROOFS. The adapter: what each port event does, that deselection pauses a transaction, and that from the states the
invariant allows no event is answered by a fault or a refusal (43_adapter.md R180 to R187). -/

namespace Sys2Proof

open Sys2Proof.Machine

/-! ### One event -/

/-- Settles O7: the two clauses are the step on a non-empty and on an empty queue. -/
theorem stepRunsNextEvent : Obligations.StepRunsNextEvent :=
  fun _ => ⟨fun _ _ h => step_cons h, step_nil⟩

/-- Settles O8: the selected byte is accepted in the state with the MISO byte emitted, and Accept is exec of the byte's
row. -/
theorem exchangeProducesThenAccepts : Obligations.ExchangeProducesThenAccepts :=
  fun _ t b out hcs hproduce => (execMosiByte_selected hcs hproduce).trans (accept_eq_exec b (emitMiso out t))

/-- Settles O33: `execMosiByte_deselected` is the claim. -/
theorem deselectedByteIsIgnored : Obligations.DeselectedByteIsIgnored :=
  fun _ b hcs => execMosiByte_deselected b hcs

/-- Settles O35: the event's row writes chip-select alone, with the level inverted. -/
theorem chipSelectSetsOnlyItsFlag : Obligations.ChipSelectSetsOnlyItsFlag :=
  fun _ => ⟨rfl, rfl⟩

/-- Settles O36: the reset event is a full reset, selected or not. -/
theorem resetEventResetsTheProtocol : Obligations.ResetEventResetsTheProtocol :=
  fun s => ⟨fullReset s, rfl, fullReset_protocolReset s, fullReset_frame s⟩

/-! ### Deselection -/

/-- Bytes sent while deselected are taken from the inputs and nothing else happens (43_adapter.md R182). -/
theorem runSteps_deselected {bs : List Byte} {s : State} {rest : List PortEvent} (hcs : s.csSel = false)
    (hin : s.inputs = bs.map PortEvent.mosi ++ rest) : runSteps bs.length s = .next { s with inputs := rest } := by
  induction bs generalizing s with
  | nil =>
    have hrest : rest = s.inputs := hin.symm
    rw [hrest]
    rfl
  | cons b bs ih =>
    have hstep := (step_cons hin).trans (deselectedByteIsIgnored { s with inputs := bs.map .mosi ++ rest } b hcs)
    rw [List.length_cons, runSteps, hstep, andThen_next]
    exact ih hcs rfl

/-- Settles O34: the first event deselects, `runSteps_deselected` passes the bytes, and the last event restores
chip-select. -/
theorem deselectionPausesTheTransaction : Obligations.DeselectionPausesTheTransaction := by
  intro bs s rest hcs hin
  have hdeselect : step s = .next { s with csSel := false, inputs := bs.map .mosi ++ .cs 0 :: rest } := step_cons hin
  have hpass : runSteps bs.length { s with csSel := false, inputs := bs.map .mosi ++ .cs 0 :: rest } =
      .next { s with csSel := false, inputs := .cs 0 :: rest } := runSteps_deselected rfl rfl
  have hselect : step { s with csSel := false, inputs := .cs 0 :: rest } =
      .next { s with csSel := true, inputs := rest } := rfl
  rw [runSteps, hdeselect, andThen_next, runSteps_add, hpass, andThen_next, runSteps, hselect, andThen_next, runSteps,
    ← hcs]

/-! ### Every exchange completes -/

theorem Inv.head_lt {s : State} (h : Inv s) (hp : s.phase = .readBlock ∨ s.phase = .writeListen) :
    s.head < s.cfg.capacity := by
  have hfits := h.blockFits hp
  have hlen : Config.blockLen = 512 := rfl
  omega

theorem produceResponse_completes {s : State} (hlt : s.respIdx.val < s.respLen.val) :
    ∃ out t, produceResponse s = .ok (out, t) := by
  by_cases hlast : s.respIdx.val + 1 = s.respLen.val
  · exact ⟨_, _, produceResponse_last hlast⟩
  · exact ⟨_, _, produceResponse_more ⟨s.respIdx.val + 1, by omega⟩ rfl (Nat.lt_of_le_of_ne hlt hlast)⟩

theorem produceBlockByte_completes {s : State} (hlt : s.head < s.cfg.capacity) :
    ∃ out t, produceBlockByte s = .ok (out, t) := by
  by_cases hlast : s.blkCount.val = 511
  · exact ⟨_, _, produceBlockByte_last (memRead_of_lt hlt) hlast⟩
  · exact ⟨_, _, produceBlockByte_more (memRead_of_lt hlt) ⟨s.blkCount.val + 1, by omega⟩ rfl⟩

theorem execWriteDataByte_completes {s : State} (b : Byte) (hlt : s.head < s.cfg.capacity) :
    ∃ t, execWriteDataByte b s = .next t := by
  by_cases hlast : s.blkCount.val = 511
  · exact ⟨_, execWriteDataByte_last b hlt hlast⟩
  · exact ⟨_, execWriteDataByte_more b hlt ⟨s.blkCount.val + 1, by omega⟩ rfl⟩

/-- Produce finds a queued byte in CMD_RESPONSE and a store byte in READ_BLOCK, the two phases in which it needs one. -/
theorem Inv.produce_completes {s : State} (h : Inv s) : ∃ out t, produce s = .ok (out, t) := by
  cases hp : s.phase
  case cmdResponse => rw [produce_cmdResponse hp]; exact produceResponse_completes (h.respIdx_lt hp)
  case readBlock => rw [produce_readBlock hp]; exact produceBlockByte_completes (h.head_lt (.inl hp))
  case writeCrc => exact ⟨_, _, produce_writeCrc hp⟩
  all_goals exact ⟨_, _, produce_filler (by simp [hp]) (by simp [hp]) (by simp [hp])⟩

/-- Accept fails in two rows only: a refused frame, and a data byte that the store has no room for. -/
theorem Inv.accept_completes {s : State} (h : Inv s) (b : Byte) (hnot : ¬AwaitsRefusedFrame s) :
    ∃ t, accept b s = .next t := by
  cases hp : s.phase
  case boot | spi | spiAcmd | idle | idleAcmd =>
    have hcmd : s.phase.isCommand = true := by rw [hp]; rfl
    obtain ⟨t, ht, -⟩ := (frameByteCompletesUnlessRefused s b hcmd).1 hnot
    exact ⟨t, (accept_frameByte hcmd b).trans ht⟩
  case writeStbt => rw [accept, decodeByte_writeStbt hp]; split <;> exact ⟨_, rfl⟩
  case writeListen => rw [accept, decodeByte_writeListen hp]; exact execWriteDataByte_completes b (h.head_lt (.inr hp))
  case writeCrc => rw [accept, decodeByte_writeCrc hp]; split <;> exact ⟨_, rfl⟩
  case cmdResponse | readBlock => rw [accept, decodeByte_tx (congrArg Phase.isTx hp)]; split <;> exact ⟨_, rfl⟩

/-- Produce brings no frame to its last byte: it leaves `cmd_len`, and while a frame is in progress it only answers
filler (10_state.md R35 item 1). -/
theorem Inv.awaitsRefusedFrame_of_produce {s t : State} {out : Byte} (h : Inv s) (ht : produce s = .ok (out, t))
    (hwait : AwaitsRefusedFrame t) : AwaitsRefusedFrame s := by
  have ⟨_, _, h5, _⟩ := hwait
  have hlen : t.cmdLen = s.cmdLen := by rw [produce_frame ht]
  have hcmd : s.phase.isCommand = true := h.cmdLen_phase (by rw [← hlen, h5]; decide)
  have hself := (produce_command hcmd).symm.trans ht
  obtain ⟨-, rfl⟩ : fillerByte = out ∧ s = t := by simpa using hself
  exact hwait

/-- Settles O38: Produce completes, and then Accept does, in the state Produce left; only the exchange's own emission
writes MISO. -/
theorem mosiByteCompletes : Obligations.MosiByteCompletes := by
  intro s b h hnot
  cases hcs : s.csSel with
  | false => exact ⟨s, execMosiByte_deselected b hcs, nofun, fun _ => rfl⟩
  | true =>
    obtain ⟨out, u, hu⟩ := h.produce_completes
    have hinv : Inv (emitMiso out u) := (h.after_produce hu).set_ports u.csSel u.inputs (u.miso ++ [out])
    have hwait : ¬AwaitsRefusedFrame (emitMiso out u) := fun hw =>
      hnot ⟨hcs, h.awaitsRefusedFrame_of_produce hu hw⟩
    obtain ⟨t, ht⟩ := hinv.accept_completes b hwait
    have hsent : u.miso = s.miso := by rw [produce_frame hu]
    have hmiso : t.miso = s.miso ++ [out] := by rw [accept_miso ht, emitMiso_miso, hsent]
    exact ⟨t, (execMosiByte_selected hcs hu).trans ht, fun _ => ⟨out, hmiso⟩, nofun⟩

/-! ### Every run completes -/

theorem not_awaitsRefusedFrame_of_single {s : State} (hmode : s.cfg.multiBlockMode = .single) :
    ¬AwaitsRefusedFrame s := fun ⟨hrefuse, _⟩ => by simp [hmode] at hrefuse

/-- Waiting and the chip-select and reset events complete in every state, a MOSI byte by `mosiByteCompletes`. -/
theorem Inv.step_completes {s : State} (h : Inv s) (hmode : s.cfg.multiBlockMode = .single) :
    ∃ t, step s = .next t := by
  cases hin : s.inputs with
  | nil => exact ⟨s, step_nil hin⟩
  | cons e rest =>
    rw [step_cons hin]
    cases e with
    | cs level => exact ⟨_, rfl⟩
    | reset => exact ⟨_, rfl⟩
    | mosi b =>
      obtain ⟨t, ht, -⟩ := mosiByteCompletes { s with inputs := rest } b (h.set_ports s.csSel rest s.miso)
        fun hw => not_awaitsRefusedFrame_of_single hmode hw.2
      exact ⟨t, ht⟩

/-- Settles O41, by induction on the number of steps: a step completes and keeps both the invariant and the
configuration. -/
theorem engineNeverStops : Obligations.EngineNeverStops := by
  intro k
  induction k with
  | zero => exact fun s h _ => ⟨s, rfl, h⟩
  | succ k ih =>
    intro s h hmode
    obtain ⟨t, ht⟩ := h.step_completes hmode
    have hcfg : t.cfg = s.cfg := (configAndChipSelectOwners s t ht).1
    rw [runSteps, ht, andThen_next]
    exact ih t (invKeptByStep s t h ht) (by rw [hcfg, hmode])

end Sys2Proof
end

section
/-! PROOFS. The errors that carry a code: an illegal command and an address error queue their R1 and leave everything
else alone (60_exceptions.md R202, R203). -/

namespace Sys2Proof

open Sys2Proof.Machine

/-- A meaning that is an illegal command: the code of the configuration is queued on the state as it was. -/
theorem answers_of_eq_illegalCommand {o : Host.Outcome State Fault Refusal} {returnTo : Phase} {s : State}
    (ho : o = .next (illegalCommand returnTo s)) :
    ∃ t, o = .next t ∧ Queued s t [s.cfg.illegalR1] returnTo ∧ ResponseOnly s t :=
  answers_of_eq_queue (r := .r1Illegal s.cfg.illegalR1) ho

/-- A meaning that is a read out of range: the address error is queued on the state as it was. -/
theorem startsRead_of_outOfRange {o : Host.Outcome State Fault Refusal} {arg : BitVec 32} {multi : Bool} {s : State}
    (ho : o = .next (startRead arg multi s)) (hover : s.cfg.capacity < arg.toNat + 512) :
    ∃ t, o = .next t ∧ Queued s t [0x20] .idle ∧ ResponseOnly s t := by
  rw [startRead_outOfRange multi (inRange_eq_false hover)] at ho
  exact answers_of_eq_queue (r := .r1AddressError) ho

/-- Settles O13: each of the five rows is an illegal command, with its phase to return to. -/
theorem illegalCommandsAnswerAndStay : Obligations.IllegalCommandsAnswerAndStay := by
  intro s idx f
  refine ⟨?boot, ?spi, ?spiAcmd, ?idleAcmd, ?idle⟩
  all_goals exact answers_of_eq_illegalCommand rfl

/-- Settles O19: CMD17 and CMD18 are reads, CMD24 and CMD25 writes, the multi-block commands under SINGLE only. -/
theorem outOfRangeBlocksAreAddressErrors : Obligations.OutOfRangeBlocksAreAddressErrors :=
  fun _ f hover => ⟨startsRead_of_outOfRange rfl hover, startsWrite_of_outOfRange rfl hover,
    fun hmode => ⟨startsRead_of_outOfRange (execCmd18_single f hmode) hover,
      startsWrite_of_outOfRange (execCmd25_single f hmode) hover⟩⟩

end Sys2Proof
end

section
/-! PROOFS. Reset and hazards: the state at creation and after a reset, and what two of the engine's waits and the
trailer of a written block do, each as a run of exchanges (70_reset_and_hazards.md R232, R233, R237, R240, R242). -/

namespace Sys2Proof

open Sys2Proof.Machine

/-! ### Creation and reset -/

theorem create_protocolReset (c : Config) : ProtocolReset (State.create c) := by
  constructor <;> rfl

/-- The created store lists no address, so each reads as its byte of INITIAL_IMAGE (20_memory.md R50). -/
theorem memRead_create {c : Config} {a : Nat} (ha : a < c.capacity) :
    (State.create c).memRead a = some (unlisted c.initialImage a) :=
  memRead_of_lt (s := State.create c) ha

/-- Settles O42: the registers by `create_protocolReset`, the store by `memRead_create`, the rest by definition. -/
theorem creationState : Obligations.CreationState :=
  fun c => ⟨create_protocolReset c, rfl, rfl, fun _ => memRead_create, rfl, rfl, rfl⟩

/-- Everything FullReset writes is a constant. -/
@[simp] theorem fullReset_fullReset (s : State) : fullReset (fullReset s) = fullReset s := rfl

/-- Settles O37: the state after the event is `fullReset s`, on which FullReset changes nothing and whose phase is
BOOT. -/
theorem resetIsIdempotent : Obligations.ResetIsIdempotent := by
  intro s t h
  obtain rfl : fullReset s = t := Host.Outcome.next.inj h
  exact ⟨congrArg Host.Outcome.next (fullReset_fullReset s),
    fun w => decodeFrame_boot (c := (fullReset s).decodeCtx) (fullReset_phase s) w⟩

/-! ### The wait for the start-block token -/

theorem accept_discarded {s : State} {b : Byte} (hp : s.phase = .writeStbt) (hb : b ≠ startToken) :
    accept b s = .next s := by
  rw [accept, decodeByte_writeStbt hp, if_neg hb]
  rfl

/-- Bytes other than the token are answered by filler and leave the engine waiting (40_byte_engine.md R103). -/
theorem exchanges_discarded {s : State} {bs : List Byte} (hcs : s.csSel = true) (hp : s.phase = .writeStbt)
    (hbs : ∀ b ∈ bs, b ≠ startToken) : Exchanges s bs (List.replicate bs.length fillerByte) s := by
  induction bs with
  | nil => exact Exchanges.nil s
  | cons b bs ih =>
    obtain ⟨hb, hmore⟩ := List.forall_mem_cons.1 hbs
    have hproduce : produce s = .ok (fillerByte, s) := produceIsFillerElsewhere s (by simp [hp])
    exact (exchanges_byte hcs hproduce (accept_discarded hp hb)).cons (ih hmore)

/-- Settles O48: `exchanges_discarded` on the ports the state has. -/
theorem tokenWaitHasNoBound : Obligations.TokenWaitHasNoBound :=
  fun _ _ _ hp hcs hbs hin => (exchanges_discarded hcs hp hbs).runSteps_eq hin

/-! ### A response under the invariant -/

/-- Settles O49: the invariant gives what `exchanges_response` asks for, a queued byte, no frame in progress, and a
phase to return to in which the last filler is neither data nor CRC. -/
theorem responseIsSentWhole : Obligations.ResponseIsSentWhole := by
  intro s rest hinv hp hcs hin
  obtain ⟨-, hlisten, hcrc⟩ := hinv.afterSend_ne
  have h0 : s.cmdLen = 0 := hinv.cmdLen_eq_zero (congrArg Phase.isCommand hp)
  have hrun := (exchanges_response hcs hp (hinv.respIdx_lt hp) hlisten hcrc h0).runSteps_eq hin
  rwa [List.length_replicate] at hrun

/-! ### The trailer of a written block -/

theorem accept_writeCrcByte0 {s : State} (hp : s.phase = .writeCrc) (hidx : s.wcrcIdx = 0) (b : Byte) :
    accept b s = .next { s with wcrcOk := s.wcrcOkAfter (crcLow s.crc16) b, wcrcIdx := 1 } := by
  rw [accept, decodeByte_writeCrc hp, if_pos hidx]
  rfl

theorem accept_writeCrcByte1 {s : State} (hp : s.phase = .writeCrc) (hidx : s.wcrcIdx = 1) (b : Byte) :
    accept b s = .next (queue (.dataResponse (s.wcrcOkAfter (crcHigh s.crc16) b)) .idle
      { s with wcrcOk := s.wcrcOkAfter (crcHigh s.crc16) b, wcrcIdx := 0 }) := by
  rw [accept, decodeByte_writeCrc hp, if_neg (by simp [hidx])]
  rfl

/-- The verdict on the trailer `x`, `y`: `x` against the low byte of the CRC, then `y` against the high byte
(40_byte_engine.md R105, R106). -/
def trailerVerdict (x y : Byte) (s : State) : Bool :=
  State.wcrcOkAfter { s with wcrcOk := s.wcrcOkAfter (crcLow s.crc16) x } (crcHigh s.crc16) y

/-- The verdict is good exactly if nothing was wrong before and the trailer is not checked or is the CRC, low byte
first. -/
theorem trailerVerdict_iff {x y : Byte} {s : State} : trailerVerdict x y s = true ↔
    s.wcrcOk = true ∧ (s.cfg.crcEnforce = false ∨ x = crcLow s.crc16 ∧ y = crcHigh s.crc16) := by
  cases henforce : s.cfg.crcEnforce <;>
    simp [trailerVerdict, State.wcrcOkAfter, wcrcByteOk, henforce, and_assoc]

/-- The two bytes of any trailer are answered by placeholders, and the token of their verdict is queued
(40_byte_engine.md R105, R106, R111). -/
theorem exchanges_trailer {s : State} (hcs : s.csSel = true) (hp : s.phase = .writeCrc) (hidx : s.wcrcIdx = 0)
    (x y : Byte) :
    Exchanges s [x, y] [dataAccepted, dataAccepted] (queue (.dataResponse (trailerVerdict x y s)) .idle
      { s with wcrcOk := trailerVerdict x y s, wcrcIdx := 0 }) := by
  have hsecond := accept_writeCrcByte1 (s := { s with wcrcOk := s.wcrcOkAfter (crcLow s.crc16) x, wcrcIdx := 1 })
    hp rfl y
  exact (exchanges_byte hcs (produce_writeCrc hp) (accept_writeCrcByte0 hp hidx x)).cons
    (exchanges_byte hcs (produce_writeCrc hp) hsecond)

/-- The token of a verdict that is a test's outcome. -/
theorem bytes_dataResponse_of_iff {ok : Bool} {p : Prop} [Decidable p] (h : ok = true ↔ p) :
    (Response.dataResponse ok).bytes = if p then [dataAccepted] else [dataCrcError] := by
  simp only [Response.bytes, h]

/-- Settles O26: `exchanges_trailer` queues the token of the verdict, and `trailerVerdict_iff` says when it is good. -/
theorem writeTrailerVerdictIsLowByteFirst : Obligations.WriteTrailerVerdictIsLowByteFirst := by
  intro s x y rest hp hidx hok hcs hin
  have hrun := (exchanges_trailer hcs hp (Fin.ext hidx) x y).runSteps_eq hin
  have hverdict : trailerVerdict x y s = true ↔
      s.cfg.crcEnforce = false ∨ x = crcLow s.crc16 ∧ y = crcHigh s.crc16 :=
    trailerVerdict_iff.trans (and_iff_right hok)
  have htoken := (pending_queue (.dataResponse (trailerVerdict x y s)) .idle s).trans
    (bytes_dataResponse_of_iff hverdict)
  exact ⟨_, hrun, rfl, rfl, rfl, htoken, rfl, rfl⟩

end Sys2Proof
end

section
/-! PROOFS. Units with fixed values: each word is the encoding of its instruction, so that the round trip decodes it
(30_encoding.md section 2, 95_test_vectors.md section 2). -/

namespace Sys2Proof

/-- A unit that is the encoding of a well-formed instruction decodes to it in every context of its row. -/
theorem decode_of_encode_eq {c : DecodeCtx} {u : CodeUnit} {i : Instr} (hu : encode i = u)
    (hwf : i.wellFormed c.cmd0InSpiAcmd = true) (hphase : i.inPhase c = true) : decode c u = .ok i :=
  hu ▸ decodeOfEncode c i hwf hphase

/-- Settles O6: each of the five units is the encoding of its instruction, which its context admits. -/
theorem specWordsDecode : Obligations.SpecWordsDecode := by
  have hread : encode (.cmd17 ⟨1, 2000000, 0x91⟩) = .frame 0x51001E848091 := by decide
  have hprefix : encode (.cmd55 ⟨1, 0, 0x65⟩) = .frame 0x770000000065 := by decide
  have htoken : encode .startBlockToken = .byte 0xFE := rfl
  have hfiller : encode .txFiller = .byte 0xFF := rfl
  have hcs : encode (.csEvent 0) = .event (.cs 0) := rfl
  exact ⟨decode_of_encode_eq hread rfl rfl, decode_of_encode_eq hprefix rfl rfl, decode_of_encode_eq htoken rfl rfl,
    decode_of_encode_eq hfiller rfl rfl, decode_of_encode_eq hcs rfl rfl⟩

end Sys2Proof
end
